-- ==== Sys2Proof/Word.lean ====
section
/-! DEFINITION. The words of the BigUint<N> block: limbs, bytes, command words, register numbers (00_scope.md R6,
R10; 30_encoding.md R60, R62). -/

namespace Sys2Proof

/-- One 64-bit limb (00_scope.md R6: the limb width is no parameter). -/
abbrev Limb := BitVec 64

/-- One byte of HIN, HOUT or VVIEW (20_memory.md R40). -/
abbrev Byte := BitVec 8

/-- One 128-bit command word (30_encoding.md R60). -/
abbrev CmdWord := BitVec 128

/-- A value register number, the content of a 4-bit field RD, RS1 or RS2 (30_encoding.md R62). -/
abbrev Reg := Fin 16

/-- A BigUint: a sequence of limbs, least significant first (00_scope.md R11, 10_state.md R21). That a value of the
machine has exactly N of them is an invariant (`Sys2Proof.Safety.Invariant`). -/
abbrev Value := List Limb

end Sys2Proof
end

