-- ==== Sys2Proof/Config.lean ====
section
/-! DEFINITION. What an instance of the block fixes (00_scope.md R5 to R9) and the free values: the bits the spec
leaves unspecified (93_implementation_defined.md I1 to I3). The free values are opaque: nothing can be proved of them,
so a theorem holds whatever they are. -/

namespace Sys2Proof

/-- PARSE_ERROR_ORDER (00_scope.md R8): which parse error a text that is both too long and invalid reports. -/
inductive ParseErrorOrder where
  | lengthFirst
  | digitsFirst
  | chunkwise
deriving DecidableEq, Repr

/-- Where the seven ports of 10_state.md R33 sit in a host address space: one base address each (00_scope.md R9). The
shape is the model's (log 10, DESIGN CHOICE). -/
structure HostMap where
  cmd : Nat
  status : Nat
  hinLen : Nat
  hin : Nat
  houtLen : Nat
  hout : Nat
  vview : Nat
deriving DecidableEq, Repr

/-- The parameters of one instance of the block (00_scope.md R5, R7 to R9). They are plain data of the state and no step
changes them, so a theorem about every state is a theorem about every instance (log 7, DESIGN CHOICE). USIZE_BITS is
fixed at 64 (R7). -/
structure Config where
  /-- N, the limb count (R5). -/
  n : Nat
  /-- NREG, the number of value registers (R7). -/
  nreg : Nat
  /-- HIN_CAP, the capacity of the hex input buffer in bytes (R7). -/
  hinCap : Nat
  /-- PARSE_ERROR_ORDER (R8). -/
  order : ParseErrorOrder
  /-- HOST_MAP, `none` where the ports sit in no host address space (R9). No definition of the model reads it, as R9 says
  of the block's own rules. -/
  hostMap : Option HostMap
deriving DecidableEq, Repr

/-- The default instance: N = 64, NREG = 16, HIN_CAP = 16·N + 2, LengthFirst (00_scope.md R5, R7, R8). The spec gives
HOST_MAP no default: `none` here (log 10). -/
def Config.default : Config := { n := 64, nreg := 16, hinCap := 1026, order := .lengthFirst, hostMap := none }

/-- The I1 free value: limb `limb` of value register `reg` while nothing has written it since reset number `launch`
(10_state.md R23: "The value a chip would hold there is unspecified"), as a host's view read sees it. Log 2. -/
opaque Config.unwrittenLimb (launch reg limb : Nat) : Limb

/-- The free value for a command that the spec gives no result because it named an unwritten register as a source
(10_state.md R23): limb `limb` of what it leaves in RD. `draw` counts the commands and resets so far, so that no two such
commands are related. Log 1. -/
opaque Config.faultLimb (draw limb : Nat) : Limb

/-- The free value for such a command's status: it "reports no code" (60_exceptions.md R166). Log 1. -/
opaque Config.faultCode (draw : Nat) : BitVec 2

/-- The I2 free value: byte `index` of HIN while nothing has written it since reset number `launch` (10_state.md R29).
Log 5. -/
opaque Config.hinByte (launch index : Nat) : Byte

/-- The I2 and I3 free value: what a host read of `HOUT[index]` returns where the spec gives no byte (10_state.md R31,
"an unspecified byte"). `draw` counts the commands and resets so far, so that two reads with a command between them are
not related. Log 6. -/
opaque Config.houtByte (draw index : Nat) : Byte

end Sys2Proof
end

