-- ==== Sys2Proof/Syntax.lean ====
section
/-! DEFINITION. The commands of BUCMD-1: one constructor for each of the 16 rows of spec/opcode_table.json
(30_encoding.md R66). An in-place variant is the command with `rd = rs1` (R66), so it has no constructor of its own. -/

namespace Sys2Proof

/-- A command (30_encoding.md R66), with the fields its format uses (R65). -/
inductive Instr where
  /-- `zero vd` (40_construction.md R80). -/
  | zero (rd : Reg)
  /-- `one vd` (40_construction.md R81). -/
  | one (rd : Reg)
  /-- `fromnat vd, imm` (40_construction.md R82). -/
  | fromnat (rd : Reg) (imm : BitVec 64)
  /-- `max vd` (40_construction.md R83). -/
  | max (rd : Reg)
  /-- `fromhex vd` (40_construction.md R89). -/
  | fromhex (rd : Reg)
  /-- `add vd, vs1, vs2` (41_arithmetic.md R101). -/
  | add (rd rs1 rs2 : Reg)
  /-- `sub vd, vs1, vs2` (41_arithmetic.md R103). -/
  | sub (rd rs1 rs2 : Reg)
  /-- `mul vd, vs1, vs2` (41_arithmetic.md R106). -/
  | mul (rd rs1 rs2 : Reg)
  /-- `and vd, vs1, vs2` (42_bitwise_shift.md R120). -/
  | and (rd rs1 rs2 : Reg)
  /-- `or vd, vs1, vs2` (42_bitwise_shift.md R121). -/
  | or (rd rs1 rs2 : Reg)
  /-- `xor vd, vs1, vs2` (42_bitwise_shift.md R122). -/
  | xor (rd rs1 rs2 : Reg)
  /-- `not vd, vs1` (42_bitwise_shift.md R123). -/
  | not (rd rs1 : Reg)
  /-- `shl vd, vs1, imm` (42_bitwise_shift.md R125). -/
  | shl (rd rs1 : Reg) (imm : BitVec 64)
  /-- `shr vd, vs1, imm` (42_bitwise_shift.md R127). -/
  | shr (rd rs1 : Reg) (imm : BitVec 64)
  /-- `tohex vs1` (43_serialization.md R142). -/
  | tohex (rs1 : Reg)
  /-- `display vs1` (43_serialization.md R144). -/
  | display (rs1 : Reg)
deriving DecidableEq, Repr

end Sys2Proof
end

