-- ==== Sys2Proof/WellFormed.lean ====
section
/-! DEFINITION. When a command is legal beyond its shape (30_encoding.md R62, R67 d), and when the parameters describe
an instance of the block (00_scope.md R5, R7). -/

namespace Sys2Proof

/-- The destination register of a command, where its format has one (30_encoding.md R65). -/
def Instr.dest : Instr → Option Reg
  | .zero rd => some rd
  | .one rd => some rd
  | .fromnat rd _ => some rd
  | .max rd => some rd
  | .fromhex rd => some rd
  | .add rd _ _ => some rd
  | .sub rd _ _ => some rd
  | .mul rd _ _ => some rd
  | .and rd _ _ => some rd
  | .or rd _ _ => some rd
  | .xor rd _ _ => some rd
  | .not rd _ => some rd
  | .shl rd _ _ => some rd
  | .shr rd _ _ => some rd
  | .tohex _ => none
  | .display _ => none

/-- The source registers of a command, RS1 first (30_encoding.md R65). -/
def Instr.sources : Instr → List Reg
  | .zero _ => []
  | .one _ => []
  | .fromnat _ _ => []
  | .max _ => []
  | .fromhex _ => []
  | .add _ rs1 rs2 => [rs1, rs2]
  | .sub _ rs1 rs2 => [rs1, rs2]
  | .mul _ rs1 rs2 => [rs1, rs2]
  | .and _ rs1 rs2 => [rs1, rs2]
  | .or _ rs1 rs2 => [rs1, rs2]
  | .xor _ rs1 rs2 => [rs1, rs2]
  | .not _ rs1 => [rs1]
  | .shl _ rs1 _ => [rs1]
  | .shr _ rs1 _ => [rs1]
  | .tohex rs1 => [rs1]
  | .display rs1 => [rs1]

/-- Every register field the command uses names one of `V0 .. V(NREG-1)` (30_encoding.md R62, R67 d). -/
def Instr.wellFormed (nreg : Nat) (i : Instr) : Bool :=
  (i.dest.toList ++ i.sources).all fun r => decide (r.val < nreg)

/-- The side conditions of the parameters: `N >= 1` (00_scope.md R5), `1 <= NREG <= 16` and `HIN_CAP >= 16·N + 2`
(R7); and HIN_CAP fits the 64-bit register HIN_LEN, whose legal values are `0 .. HIN_CAP` (10_state.md R28; DEDUCED,
log 8). -/
def Config.wf (c : Config) : Bool :=
  decide (1 ≤ c.n) && decide (1 ≤ c.nreg) && decide (c.nreg ≤ 16) && decide (16 * c.n + 2 ≤ c.hinCap) &&
    decide (c.hinCap < 2 ^ 64)

end Sys2Proof
end

