-- ==== Sys2Proof/Decode.lean ====
section
/-! DEFINITION. The encoding of the commands (30_encoding.md): fields, formats, the total decoder, the encoder, the
byte delivery of a word, and the mask and match table. -/

namespace Sys2Proof

/-- The fields of a command word (30_encoding.md R60). -/
def fieldOp (w : CmdWord) : BitVec 8 := w.extractLsb' 0 8
def fieldRd (w : CmdWord) : BitVec 4 := w.extractLsb' 8 4
def fieldRs1 (w : CmdWord) : BitVec 4 := w.extractLsb' 12 4
def fieldRs2 (w : CmdWord) : BitVec 4 := w.extractLsb' 16 4
def fieldRsv (w : CmdWord) : BitVec 44 := w.extractLsb' 20 44
def fieldImm (w : CmdWord) : BitVec 64 := w.extractLsb' 64 64

/-- A 4-bit field selects `V[r]` (30_encoding.md R62). -/
def regOf (f : BitVec 4) : Reg := f.toFin

/-- Why a word is illegal: 30_encoding.md R67 (a) to (d); `truncated` is for fewer or more than the 16 bytes of a
delivery (R61). -/
inductive DecodeError where
  | unknownOp
  | reservedNonzero
  | unusedFieldNonzero
  | registerOutOfRange
  | truncated
deriving DecidableEq, Repr

/-- The operand formats (30_encoding.md R65). -/
inductive Format where
  | d
  | di
  | dst
  | ds
  | dsi
  | s
deriving DecidableEq, Repr

/-- The fields the format must find zero are zero (30_encoding.md R65). -/
def Format.unusedZero (f : Format) (w : CmdWord) : Bool :=
  match f with
  | .d => fieldRs1 w == 0 && fieldRs2 w == 0 && fieldImm w == 0
  | .di => fieldRs1 w == 0 && fieldRs2 w == 0
  | .dst => fieldImm w == 0
  | .ds => fieldRs2 w == 0 && fieldImm w == 0
  | .dsi => fieldRs2 w == 0
  | .s => fieldRd w == 0 && fieldRs2 w == 0 && fieldImm w == 0

/-- The checks every known OP shares: RSV first, then the unused fields (30_encoding.md R69). -/
def acceptWord (f : Format) (w : CmdWord) (i : Instr) : Except DecodeError Instr :=
  if fieldRsv w ≠ 0 then .error .reservedNonzero
  else if f.unusedZero w then .ok i
  else .error .unusedFieldNonzero

/-- The opcode map (30_encoding.md R66) and the checks that do not need NREG. -/
def decodeFields (w : CmdWord) : Except DecodeError Instr :=
  let rd := regOf (fieldRd w)
  let rs1 := regOf (fieldRs1 w)
  let rs2 := regOf (fieldRs2 w)
  let imm := fieldImm w
  match fieldOp w with
  | 0x01#8 => acceptWord .d w (.zero rd)
  | 0x02#8 => acceptWord .d w (.one rd)
  | 0x03#8 => acceptWord .di w (.fromnat rd imm)
  | 0x04#8 => acceptWord .d w (.max rd)
  | 0x05#8 => acceptWord .d w (.fromhex rd)
  | 0x10#8 => acceptWord .dst w (.add rd rs1 rs2)
  | 0x11#8 => acceptWord .dst w (.sub rd rs1 rs2)
  | 0x12#8 => acceptWord .dst w (.mul rd rs1 rs2)
  | 0x20#8 => acceptWord .dst w (.and rd rs1 rs2)
  | 0x21#8 => acceptWord .dst w (.or rd rs1 rs2)
  | 0x22#8 => acceptWord .dst w (.xor rd rs1 rs2)
  | 0x23#8 => acceptWord .ds w (.not rd rs1)
  | 0x24#8 => acceptWord .dsi w (.shl rd rs1 imm)
  | 0x25#8 => acceptWord .dsi w (.shr rd rs1 imm)
  | 0x30#8 => acceptWord .s w (.tohex rs1)
  | 0x31#8 => acceptWord .s w (.display rs1)
  | _ => .error .unknownOp

/-- The decoder, total on every word (30_encoding.md R69): the fields, then the register numbers against NREG. -/
def decode (nreg : Nat) (w : CmdWord) : Except DecodeError Instr :=
  match decodeFields w with
  | .ok i => if i.wellFormed nreg then .ok i else .error .registerOutOfRange
  | .error e => .error e

/-- The number whose little-endian bytes are `bs`: byte 0 is the least significant (30_encoding.md R61, 20_memory.md
R44). -/
def leNat : List Byte → Nat
  | [] => 0
  | b :: bs => b.toNat + 256 * leNat bs

/-- The 16 bytes of a word's delivery on a narrow bus: byte b holds bits `[8·b+7 : 8·b]` (30_encoding.md R61). -/
def wordBytes (w : CmdWord) : List Byte := (List.range 16).map fun b => w.extractLsb' (8 * b) 8

/-- The word that 16 delivered bytes make (30_encoding.md R61). -/
def bytesWord (bs : List Byte) : CmdWord := BitVec.ofNat 128 (leNat bs)

/-- The decoder on a delivery of bytes. -/
def decodeBytes (nreg : Nat) (bs : List Byte) : Except DecodeError Instr :=
  if bs.length = 16 then decode nreg (bytesWord bs) else .error .truncated

/-- What the decoder reads from an instruction whose bits are `w`, at the default NREG of 16 (every register number is
legal). -/
def decodeTableWord (nbits w : Nat) : Option Instr :=
  match decodeBytes 16 (wordBytes (BitVec.ofNat 128 (w % 2 ^ nbits))) with
  | .ok i => some i
  | .error _ => none

/-- The OP value of a command (30_encoding.md R66). -/
def Instr.opcode : Instr → BitVec 8
  | .zero _ => 0x01#8
  | .one _ => 0x02#8
  | .fromnat _ _ => 0x03#8
  | .max _ => 0x04#8
  | .fromhex _ => 0x05#8
  | .add _ _ _ => 0x10#8
  | .sub _ _ _ => 0x11#8
  | .mul _ _ _ => 0x12#8
  | .and _ _ _ => 0x20#8
  | .or _ _ _ => 0x21#8
  | .xor _ _ _ => 0x22#8
  | .not _ _ => 0x23#8
  | .shl _ _ _ => 0x24#8
  | .shr _ _ _ => 0x25#8
  | .tohex _ => 0x30#8
  | .display _ => 0x31#8

/-- The word that holds the given fields: `IMM, 44'b0, RS2, RS1, RD, OP`, most significant first (30_encoding.md
R72). -/
def packWord (op : BitVec 8) (rd rs1 rs2 : Reg) (imm : BitVec 64) : CmdWord :=
  let regField (r : Reg) : BitVec 4 := BitVec.ofFin r
  imm ++ 0#44 ++ regField rs2 ++ regField rs1 ++ regField rd ++ op

/-- The word of a command: its fields by its format, every other field zero (30_encoding.md R65, R66). -/
def encode (i : Instr) : CmdWord :=
  match i with
  | .zero rd => packWord i.opcode rd 0 0 0
  | .one rd => packWord i.opcode rd 0 0 0
  | .fromnat rd imm => packWord i.opcode rd 0 0 imm
  | .max rd => packWord i.opcode rd 0 0 0
  | .fromhex rd => packWord i.opcode rd 0 0 0
  | .add rd rs1 rs2 => packWord i.opcode rd rs1 rs2 0
  | .sub rd rs1 rs2 => packWord i.opcode rd rs1 rs2 0
  | .mul rd rs1 rs2 => packWord i.opcode rd rs1 rs2 0
  | .and rd rs1 rs2 => packWord i.opcode rd rs1 rs2 0
  | .or rd rs1 rs2 => packWord i.opcode rd rs1 rs2 0
  | .xor rd rs1 rs2 => packWord i.opcode rd rs1 rs2 0
  | .not rd rs1 => packWord i.opcode rd rs1 0 0
  | .shl rd rs1 imm => packWord i.opcode rd rs1 0 imm
  | .shr rd rs1 imm => packWord i.opcode rd rs1 0 imm
  | .tohex rs1 => packWord i.opcode 0 rs1 0 0
  | .display rs1 => packWord i.opcode 0 rs1 0 0

/-- One row of the opcode table (30_encoding.md R70). -/
structure OpcodeRow where
  mnemonic : String
  pattern : CmdWord
  mask : CmdWord
deriving DecidableEq, Repr

/-- A word has the row's pattern under the row's mask (30_encoding.md R69). -/
def OpcodeRow.hits (r : OpcodeRow) (w : CmdWord) : Bool := w &&& r.mask == r.pattern

/-- The masks of the six formats (30_encoding.md R70). -/
def Format.mask : Format → CmdWord
  | .d => 0xfffffffffffffffffffffffffffff0ff#128
  | .di => 0x0000000000000000fffffffffffff0ff#128
  | .dst => 0xfffffffffffffffffffffffffff000ff#128
  | .ds => 0xffffffffffffffffffffffffffff00ff#128
  | .dsi => 0x0000000000000000ffffffffffff00ff#128
  | .s => 0xffffffffffffffffffffffffffff0fff#128

/-- The match and mask of every command (30_encoding.md R70). -/
def opcodeTable : List OpcodeRow :=
  [⟨"ZERO", 0x01#128, Format.d.mask⟩, ⟨"ONE", 0x02#128, Format.d.mask⟩, ⟨"FROMNAT", 0x03#128, Format.di.mask⟩,
   ⟨"MAX", 0x04#128, Format.d.mask⟩, ⟨"FROMHEX", 0x05#128, Format.d.mask⟩] ++
  [⟨"ADD", 0x10#128, Format.dst.mask⟩, ⟨"SUB", 0x11#128, Format.dst.mask⟩, ⟨"MUL", 0x12#128, Format.dst.mask⟩] ++
  [⟨"AND", 0x20#128, Format.dst.mask⟩, ⟨"OR", 0x21#128, Format.dst.mask⟩, ⟨"XOR", 0x22#128, Format.dst.mask⟩,
   ⟨"NOT", 0x23#128, Format.ds.mask⟩, ⟨"SHL", 0x24#128, Format.dsi.mask⟩, ⟨"SHR", 0x25#128, Format.dsi.mask⟩] ++
  [⟨"TOHEX", 0x30#128, Format.s.mask⟩, ⟨"DISPLAY", 0x31#128, Format.s.mask⟩]

end Sys2Proof
end

