-- ==== Sys2Proof/Machine/State.lean ====
section
/-! DEFINITION. The state of the machine as plain data: the block's record (10_state.md R36), the parameters, the
model's marks, and the host's side (60_exceptions.md R174). State.reset is the machine right after reset
(70_reset_and_hazards.md R180). -/

namespace Sys2Proof.Machine

/-- The contents of one byte-indexed space: (index, byte) pairs, indices strictly rising. An index that is not listed
has no stored byte: what a read of it gives is a free value (`Config.hinByte`, `Config.houtByte`). -/
abbrev Memory := List Host.Cell

/-- A value register. `written` is the spec's mark (10_state.md R23, R36: "unwritten" is `written = false`). While
`written` is false, `limbs` is never read (log 1, log 2). -/
structure Slot where
  written : Bool
  limbs : Value
deriving DecidableEq, Repr

/-- STATUS.CODE (10_state.md R27, 60_exceptions.md R161). The reserved bits 7:2 always read 0, so the code is all that
STATUS holds; the 8-bit register is `State.statusByte`. -/
inductive StatusCode where
  /-- 0: every command that completes without error. -/
  | ok
  /-- 1: FROMHEX, a byte of the digit text is no hex digit. -/
  | invalidHexDigit
  /-- 2: FROMHEX, the digit text needs more than N chunks. -/
  | tooManyLimbs
  /-- 3: a word that decodes to no command. -/
  | illegalCommand
deriving DecidableEq, Repr

/-- What the fault mark records (60_exceptions.md R173; "never final", 93_implementation_defined.md section 1). -/
inductive ModelFault where
  /-- A command or a VVIEW read took the value of a register that nothing has written since reset (10_state.md R23). -/
  | unwrittenRead (r : Reg)
deriving DecidableEq, Repr

/-- What the refusal mark records (60_exceptions.md R173): the host actions that have no meaning in the model. -/
inductive RefusedAction where
  /-- A reset while a command runs or its bytes are being delivered (70_reset_and_hazards.md R187). -/
  | resetDuringCommand
  /-- A leading-zero-suppressed rendering (43_serialization.md R146). -/
  | suppressedRendering
deriving DecidableEq, Repr

/-- The three byte-indexed spaces (20_memory.md R40). -/
inductive Space where
  | hin
  | hout
  | vview
deriving DecidableEq, Repr

/-- The ports the host may only read (10_state.md R33). -/
inductive ReadOnlyPort where
  | status
  | houtLen
  | hout
  | vview
deriving DecidableEq, Repr

/-- What the host may not do while a command runs (60_exceptions.md R174). -/
inductive Overlap where
  | access
  | reset
deriving DecidableEq, Repr

/-- One action of the host (60_exceptions.md R174). The actions that break a duty stand here too, so that the model says
by name where it stops. -/
inductive HostAction where
  /-- Write a 128-bit word to CMD: it runs (R33, 30_encoding.md R60). -/
  | writeCmd (w : CmdWord)
  /-- Deliver one byte of a command on a narrow bus, byte 0 first (30_encoding.md R61). -/
  | writeCmdByte (b : Byte)
  /-- Write bytes to HIN from index `k` (20_memory.md R40, R45). -/
  | writeHin (k : Nat) (bs : List Byte)
  /-- Write HIN_LEN (10_state.md R28). -/
  | writeHinLen (v : BitVec 64)
  /-- Read STATUS (10_state.md R27; the directive `.expect_status`, 30_encoding.md R74). -/
  | readStatus
  /-- Read HIN_LEN (10_state.md R28). -/
  | readHinLen
  /-- Read HOUT_LEN (10_state.md R30). -/
  | readHoutLen
  /-- Read `w` bytes of a space from index `k` (20_memory.md R44, R45). -/
  | readBytes (sp : Space) (k w : Nat)
  /-- Assert reset between commands (70_reset_and_hazards.md R180). -/
  | reset
  /-- Breaks a duty: a write to a port the host may only read (R174, 90_conflicts.md C9). -/
  | writeReadOnly (p : ReadOnlyPort)
  /-- Breaks a duty: a read of CMD, which the host may only write (10_state.md R33). -/
  | readCmd
  /-- Breaks a duty: an access or a reset while the command `w` runs (R174, 70_reset_and_hazards.md R187). -/
  | duringCommand (w : CmdWord) (o : Overlap)
  /-- Asks for a leading-zero-suppressed text, which the block does not offer (43_serialization.md R146). -/
  | suppressedHex (r : Reg)
deriving DecidableEq, Repr

/-- What the last host read returned: its width in bytes and its value, composed little-endian (20_memory.md R44). -/
structure HostData where
  width : Nat
  value : Nat
deriving DecidableEq, Repr

/-- The stuck outcomes: a host action that breaks a duty has no move (60_exceptions.md R173, R174). Raised by
`Sys2Proof.Machine.perform` only, never by a command. UNSAFE for a chip that does something defined there (R173: "errs
toward proving"), so a claim takes the duties as premises; log 14. -/
inductive Fault where
  /-- The host wrote a HIN_LEN above HIN_CAP (10_state.md R28). Raised by `writeHinLen`. Unsafe as above. -/
  | hinLenAboveCap (v : BitVec 64)
  /-- The host reached past the end of a space (20_memory.md R45). Raised by `writeHin` and `readBytes`. Unsafe as
  above. -/
  | pastEndOfSpace (sp : Space) (k w : Nat)
  /-- The host wrote a port it may only read (R174). Raised by `writeReadOnly`. Unsafe as above. -/
  | writeToReadOnlyPort (p : ReadOnlyPort)
  /-- The host read CMD (10_state.md R33). Raised by `readCmd`. Unsafe as above. -/
  | readOfCmd
  /-- The host made an access before its CMD write returned (R174). Raised by `duringCommand`, and by any other access
  while the bytes of a command are being delivered. Unsafe as above. -/
  | accessDuringCommand
deriving DecidableEq, Repr

/-- Where the model stops because it gives no meaning (60_exceptions.md R173). Raised by `Sys2Proof.Machine.perform` and
`runNext`, never by a command. Safe: nothing can be proved of such a run; log 4. -/
inductive Refusal where
  /-- An arm of exec without a meaning. No arm is. Safe. -/
  | notModelled (mnemonic : String)
  /-- An action other than a reset while the refusal mark is set. Raised by `perform`. Safe. -/
  | underRefusalMark (m : RefusedAction)
  /-- Parameters that are no instance of the block (92_eei_decisions.md D2). Safe. -/
  | invalidConfiguration
deriving DecidableEq, Repr

/-- The whole state. The block's own record is `regs` to `hout` (10_state.md R36). -/
structure State where
  /-- The instance's parameters (00_scope.md R5, R7, R8). No step changes them. -/
  cfg : Config
  /-- V0 .. V15 (10_state.md R22). A command names only the first NREG of them (30_encoding.md R62). -/
  regs : Vector Slot 16
  /-- STATUS.CODE (10_state.md R27). -/
  status : StatusCode
  /-- HIN_LEN (10_state.md R28). -/
  hinLen : BitVec 64
  /-- HIN (10_state.md R29). -/
  hin : Memory
  /-- HOUT_LEN (10_state.md R30). -/
  houtLen : BitVec 64
  /-- HOUT (10_state.md R31). -/
  hout : Memory
  /-- The model's fault mark (10_state.md R36, 60_exceptions.md R173): the first unwritten read since reset. -/
  faultMark : Option ModelFault
  /-- The model's refusal mark (10_state.md R36, 60_exceptions.md R173): the first refused action since reset. -/
  refusalMark : Option RefusedAction
  /-- The model's own: how many resets there were, the argument of the free values of HIN and VVIEW (log 2, log 5). -/
  launch : Nat
  /-- The model's own: how many commands and resets there were, the argument of the free values of HOUT and of a command
  without a result (log 1, log 6). -/
  draws : Nat
  /-- The host's actions not yet performed, the next one first (10_state.md R25; log 11). -/
  pending : List HostAction
  /-- The bytes of a command word delivered so far on a narrow bus (30_encoding.md R61; log 13). -/
  delivery : List Byte
  /-- The harness's command index (10_state.md R25). -/
  ci : Nat
  /-- What the last host read returned (60_exceptions.md R174; log 22). -/
  returned : HostData
deriving DecidableEq, Repr

/-- An instance right after its power-on reset, with no host action pending (70_reset_and_hazards.md R180). -/
def State.initial (c : Config) : State :=
  { cfg := c
    regs := Vector.replicate 16 { written := false, limbs := List.replicate c.n 0 }
    status := .ok
    hinLen := 0
    hin := []
    houtLen := 0
    hout := []
    faultMark := none
    refusalMark := none
    launch := 0
    draws := 0
    pending := []
    delivery := []
    ci := 0
    returned := { width := 0, value := 0 } }

/-- The default instance right after reset. -/
def State.reset : State := State.initial Config.default

end Sys2Proof.Machine
end

