-- ==== Sys2Proof/Machine/Flags.lean ====
section
/-! DEFINITION. The block has no flags and no condition codes (10_state.md R26). Its one status is STATUS (R27), which
every command writes exactly once (60_exceptions.md R162). -/

namespace Sys2Proof.Machine

/-- The 2-bit code of a status (60_exceptions.md R161). -/
def StatusCode.bits : StatusCode → BitVec 2
  | .ok => 0#2
  | .invalidHexDigit => 1#2
  | .tooManyLimbs => 2#2
  | .illegalCommand => 3#2

/-- The status with a 2-bit code. -/
def StatusCode.ofBits (b : BitVec 2) : StatusCode :=
  if b = 0#2 then .ok else if b = 1#2 then .invalidHexDigit else if b = 2#2 then .tooManyLimbs else .illegalCommand

/-- STATUS as the host reads it: CODE in bits 1:0, bits 7:2 zero (10_state.md R27). -/
def State.statusByte (s : State) : Byte := 0#6 ++ s.status.bits

/-- `STATUS <- c` (00_scope.md R13). -/
def State.setStatus (c : StatusCode) (s : State) : State := { s with status := c }

/-- `raise Status(c)`: write STATUS and change nothing else (00_scope.md R13). It is all that an error of the block
does: nothing traps (60_exceptions.md R164, R167). -/
def State.raiseStatus (c : StatusCode) (s : State) : State := s.setStatus c

end Sys2Proof.Machine
end

