-- ==== Sys2Proof/Machine/Ops.lean ====
section
/-! DEFINITION. The named operations over the byte spaces and the value registers, reset, and issuing a command. The
block takes no exception and has no return from one (60_exceptions.md R164 to R168): an error is `State.raiseStatus`
(Flags.lean). -/

namespace Sys2Proof.Machine

/-- The stored byte at an index, if there is one. -/
def Memory.read (m : Memory) (a : Nat) : Option Byte :=
  match m with
  | [] => none
  | c :: t => if c.1 = a then some c.2 else Memory.read t a

/-- The cells of a block of bytes from index `a` on. -/
def Memory.cells (a : Nat) : List Byte → Memory
  | [] => []
  | b :: bs => (a, b) :: Memory.cells (a + 1) bs

/-- Write a block of bytes from index `a` on: `MemWrite(_, a + j, 1, bs[j])` for every j (00_scope.md R13). -/
def Memory.writeBlock (m : Memory) (a : Nat) (bs : List Byte) : Memory :=
  m.filter (fun c => decide (c.1 < a)) ++ Memory.cells a bs ++ m.filter (fun c => decide (a + bs.length ≤ c.1))

/-- The canonical form: indices strictly rising. -/
def Memory.wf : Memory → Bool
  | [] => true
  | c :: t => t.all (fun d => decide (c.1 < d.1)) && Memory.wf t

/-- Limb `i` of a value; a limb the value does not have is 0 (00_scope.md R11). -/
def limbAt (v : Value) (i : Nat) : Limb := v.getD i 0#64

/-- `val(L)`, the number a value stands for (00_scope.md R11). -/
def val : Value → Nat
  | [] => 0
  | x :: xs => x.toNat + 2 ^ 64 * val xs

/-- `limbs_N(v)`, the N limbs of a number (00_scope.md R11). -/
def limbsOf (n v : Nat) : Value := (List.range n).map fun i => BitVec.ofNat 64 (v / 2 ^ (64 * i))

/-- `shl64(x, k)`: a count of 64 or more gives 0 (00_scope.md R12, 90_conflicts.md C2). -/
def shl64 (x : Limb) (k : Nat) : Limb := x <<< k

/-- `shr64(x, k)`: a count of 64 or more gives 0 (00_scope.md R12, 90_conflicts.md C2). -/
def shr64 (x : Limb) (k : Nat) : Limb := x >>> k

/-- Value register `r` with its written mark (10_state.md R22, R36). -/
def State.slot (s : State) (r : Reg) : Slot := s.regs[r]

/-- `V[r]` (00_scope.md R13): the register's limbs; for an unwritten register, as a view read sees it, N free limbs
(10_state.md R23; log 2). -/
def State.value (s : State) (r : Reg) : Value :=
  if (s.slot r).written then (s.slot r).limbs
  else (List.range s.cfg.n).map (Config.unwrittenLimb s.launch r.val)

/-- Record a read of register `r` in the fault mark when it is unwritten; the first such read since reset stays
(10_state.md R23, 60_exceptions.md R173; log 3). -/
def State.noteRead (r : Reg) (s : State) : State :=
  { s with faultMark := s.faultMark.or (if (s.slot r).written then none else some (.unwrittenRead r)) }

/-- The first unwritten register of a list of sources, if any (10_state.md R23). -/
def State.firstUnwritten (s : State) (rs : List Reg) : Option Reg := rs.find? fun r => !(s.slot r).written

/-- N free limbs, for a command that the spec gives no result (10_state.md R23; log 1). -/
def State.freeResult (s : State) : Value := (List.range s.cfg.n).map (Config.faultLimb s.draws)

/-- Record a refused action in the refusal mark, "kept for the whole state"; the first one since reset stays, and a
delivery in progress is dropped (60_exceptions.md R173; log 4). -/
def State.refuseAction (m : RefusedAction) (s : State) : State :=
  { s with refusalMark := s.refusalMark.or (some m), delivery := [] }

/-- `V[r] <- v` (00_scope.md R13): it changes V[r] only and makes it written (10_state.md R23, R24). -/
def State.setReg (r : Reg) (v : Value) (s : State) : State :=
  { s with regs := s.regs.set r { written := true, limbs := v } }

/-- Byte `a` of HIN: the stored byte, or the free value where nothing has written it since reset (10_state.md R29;
log 5). -/
def State.hinByteAt (s : State) (a : Nat) : Byte := (s.hin.read a).getD (Config.hinByte s.launch a)

/-- The text in HIN: `HIN[0 .. HIN_LEN-1]` (10_state.md R28). -/
def State.hinText (s : State) : List Byte := (List.range s.hinLen.toNat).map s.hinByteAt

/-- Byte `a` of HOUT as the host reads it: the stored byte below HOUT_LEN, and a free value at or above it
(10_state.md R31; log 6). -/
def State.houtByteAt (s : State) (a : Nat) : Byte :=
  if a < s.houtLen.toNat then (s.hout.read a).getD (Config.houtByte s.draws a) else Config.houtByte s.draws a

/-- The text in HOUT: `HOUT[0 .. HOUT_LEN-1]` (10_state.md R30). -/
def State.houtText (s : State) : List Byte := (List.range s.houtLen.toNat).map s.houtByteAt

/-- Write a text to HOUT from index 0 and its length to HOUT_LEN (43_serialization.md R142, R144). -/
def State.setHout (text : List Byte) (len : Nat) (s : State) : State :=
  { s with hout := s.hout.writeBlock 0 text, houtLen := BitVec.ofNat 64 len }

/-- The register whose view byte `k` of VVIEW belongs to (20_memory.md R43). -/
def viewReg (c : Config) (k : Nat) : Reg := Fin.ofNat 16 (k / (8 * c.n))

/-- Byte `k` of VVIEW, `V[r].limbs[i][8·j+7 : 8·j]` with `k = r·8·N + 8·i + j` (20_memory.md R43). -/
def State.vviewByte (s : State) (k : Nat) : Byte :=
  let limb := limbAt (s.value (viewReg s.cfg k)) (k % (8 * s.cfg.n) / 8)
  limb.extractLsb' (8 * (k % 8)) 8

/-- The size of a space in bytes (20_memory.md R40). -/
def spaceSize (c : Config) : Space → Nat
  | .hin => c.hinCap
  | .hout => 16 * c.n + 2
  | .vview => c.nreg * (8 * c.n)

/-- Reset (70_reset_and_hazards.md R180): the block's record and both marks take their reset values; the
parameters and the host's own fields stay, and the free values are drawn anew (log 2, log 5, log 6). -/
def State.resetBlock (s : State) : State :=
  { State.initial s.cfg with
    launch := s.launch + 1
    draws := s.draws + 1
    pending := s.pending
    ci := s.ci
    returned := s.returned }

/-- The host's bookkeeping of one command: the command index advances by exactly 1 whatever the command's status
(10_state.md R25), no delivery is in progress any more, and the free value of HOUT is drawn anew (log 6, log 12). -/
def State.issueCommand (s : State) : State :=
  { s with ci := s.ci + 1, draws := s.draws + 1, delivery := [] }

end Sys2Proof.Machine
end

