-- ==== Sys2Proof/Machine/Operands.lean ====
section
/-! DEFINITION. The operand formats as operations (30_encoding.md R63, R65): each reads all of its sources, then writes
one result and STATUS (00_scope.md R14, 70_reset_and_hazards.md R184). The meanings are these at the family's own
functions. A command that names an unwritten source has no result (10_state.md R23). -/

namespace Sys2Proof.Machine

/-- A command's success: `V[rd] <- v`, then `STATUS <- OK` as the last effect (60_exceptions.md R162). -/
def State.writeResult (rd : Reg) (v : Value) (s : State) : State := (s.setReg rd v).setStatus .ok

/-- What a command leaves when its source `r` is unwritten: the model fault `UnwrittenRead(r)`, noted in the fault mark
and "never final". The spec gives the command no result and no code (10_state.md R23, 60_exceptions.md R166), so RD and
STATUS take free values of their own; HOUT and HOUT_LEN stay (43_serialization.md R142), as does everything else
(log 1). -/
def State.withoutResult (r : Reg) (dest : Option Reg) (s : State) : State :=
  let noted := s.noteRead r
  let written := match dest with
    | some rd => noted.setReg rd s.freeResult
    | none => noted
  written.setStatus (StatusCode.ofBits (Config.faultCode s.draws))

/-- Run a command with sources `rs`, RS1 first: the state `t` it leaves when all of them are written, else no result. -/
def withSources (rs : List Reg) (dest : Option Reg) (t s : State) : Host.Outcome State Fault Refusal :=
  match s.firstUnwritten rs with
  | none => .next t
  | some r => .next (s.withoutResult r dest)

/-- Format D: no source (30_encoding.md R65). -/
def formatD (f : Nat → Value) (rd : Reg) (s : State) : Host.Outcome State Fault Refusal :=
  .next (s.writeResult rd (f s.cfg.n))

/-- Format DI: the immediate, unsigned, with no extension (30_encoding.md R63). -/
def formatDI (f : Nat → BitVec 64 → Value) (rd : Reg) (imm : BitVec 64) (s : State) :
    Host.Outcome State Fault Refusal :=
  .next (s.writeResult rd (f s.cfg.n imm))

/-- Format DST: two register sources. -/
def formatDST (f : Nat → Value → Value → Value) (rd rs1 rs2 : Reg) (s : State) :
    Host.Outcome State Fault Refusal :=
  withSources [rs1, rs2] (some rd) (s.writeResult rd (f s.cfg.n (s.value rs1) (s.value rs2))) s

/-- Format DS: one register source. -/
def formatDS (f : Nat → Value → Value) (rd rs1 : Reg) (s : State) : Host.Outcome State Fault Refusal :=
  withSources [rs1] (some rd) (s.writeResult rd (f s.cfg.n (s.value rs1))) s

/-- Format DSI: one register source and the immediate as a shift amount, every value of it legal (30_encoding.md
R63). -/
def formatDSI (f : Nat → Value → Nat → Value) (rd rs1 : Reg) (imm : BitVec 64) (s : State) :
    Host.Outcome State Fault Refusal :=
  withSources [rs1] (some rd) (s.writeResult rd (f s.cfg.n (s.value rs1) imm.toNat)) s

/-- Format S: one register source, a text of `len N` bytes to HOUT, no register written. -/
def formatS (f : Nat → Value → List Byte) (len : Nat → Nat) (rs1 : Reg) (s : State) :
    Host.Outcome State Fault Refusal :=
  withSources [rs1] none ((s.setHout (f s.cfg.n (s.value rs1)) (len s.cfg.n)).setStatus .ok) s

end Sys2Proof.Machine
end

