-- ==== Sys2Proof/Machine/Construction.lean ====
section
/-! DEFINITION. Construction and constants (40_construction.md): ZERO, ONE, FROMNAT, MAX, and the hex parser of
FROMHEX. -/

namespace Sys2Proof.Machine

/-- N limbs of 0 (R80). -/
def zeroN (n : Nat) : Value := List.replicate n 0#64

/-- `[v, 0, ..., 0]` on N limbs (R82). -/
def fromNatN (n : Nat) (v : BitVec 64) : Value := (List.range n).map fun i => if i = 0 then v else 0#64

/-- `[1, 0, ..., 0]` on N limbs (R81). -/
def oneN (n : Nat) : Value := fromNatN n 1#64

/-- N limbs of all ones (R83). -/
def maxN (n : Nat) : Value := List.replicate n (BitVec.allOnes 64)

/-- `isHex(b)`: the 22 ASCII digit codes (R84, 20_memory.md R42). -/
def isHex (b : Byte) : Bool :=
  (0x30#8 ≤ b && b ≤ 0x39#8) || (0x41#8 ≤ b && b ≤ 0x46#8) || (0x61#8 ≤ b && b ≤ 0x66#8)

/-- `hexval(b)`, used on hex digits only (R84). -/
def hexval (b : Byte) : Nat :=
  if b ≤ 0x39#8 then b.toNat - 0x30 else if b ≤ 0x46#8 then b.toNat - 0x37 else b.toNat - 0x57

/-- Strip one leading `0x` or `0X` (R85). -/
def stripHexPrefix : List Byte → List Byte
  | a :: b :: t => if a = 0x30#8 ∧ (b = 0x78#8 ∨ b = 0x58#8) then t else a :: b :: t
  | s => s

/-- `C = ceil(Lt / 16)`, leading zeros counted (R86, 90_conflicts.md C3). -/
def chunkCount (lt : Nat) : Nat := (lt + 15) / 16

/-- Chunk k: the characters from `max(0, Lt - 16·(k+1))` up to `Lt - 16·k` (R86). A chunk at or past C is empty. -/
def chunk (t : List Byte) (k : Nat) : List Byte :=
  (t.take (t.length - 16 * k)).drop (t.length - 16 * (k + 1))

/-- The big-endian numeral of hex digits (R87). -/
def hexNumeral (t : List Byte) : Nat := t.foldl (fun acc b => acc * 16 + hexval b) 0

/-- The two parse errors (60_exceptions.md R161). -/
inductive ParseError where
  | invalidHexDigit
  | tooManyLimbs
deriving DecidableEq, Repr

/-- The status code of a parse error (60_exceptions.md R161). -/
def ParseError.code : ParseError → StatusCode
  | .invalidHexDigit => .invalidHexDigit
  | .tooManyLimbs => .tooManyLimbs

/-- The limbs of a valid digit text: chunk k is limb k, and the limbs from C on are 0 (R87, R88). -/
def parseLimbs (n : Nat) (t : List Byte) : Value :=
  (List.range n).map fun k => BitVec.ofNat 64 (hexNumeral (chunk t k))

/-- Which parse error, if any, a digit text reports (R88). -/
def parseFault (n : Nat) (order : ParseErrorOrder) (t : List Byte) : Option ParseError :=
  let long := decide (n < chunkCount t.length)
  let badAll := t.any fun b => !isHex b
  let badLow := (t.drop (t.length - 16 * n)).any fun b => !isHex b
  match order with
  | .lengthFirst => if long then some .tooManyLimbs else if badAll then some .invalidHexDigit else none
  | .digitsFirst => if badAll then some .invalidHexDigit else if long then some .tooManyLimbs else none
  | .chunkwise => if badLow then some .invalidHexDigit else if long then some .tooManyLimbs else none

/-- `parse_hex(s)` (R88). -/
def parseHex (n : Nat) (order : ParseErrorOrder) (s : List Byte) : Except ParseError Value :=
  match parseFault n order (stripHexPrefix s) with
  | some e => .error e
  | none => .ok (parseLimbs n (stripHexPrefix s))

/-- ZERO (R80). -/
def execZero (rd : Reg) (s : State) : Host.Outcome State Fault Refusal := formatD zeroN rd s

/-- ONE (R81). -/
def execOne (rd : Reg) (s : State) : Host.Outcome State Fault Refusal := formatD oneN rd s

/-- FROMNAT (R82). -/
def execFromnat (rd : Reg) (imm : BitVec 64) (s : State) : Host.Outcome State Fault Refusal :=
  formatDI fromNatN rd imm s

/-- MAX (R83). -/
def execMax (rd : Reg) (s : State) : Host.Outcome State Fault Refusal := formatD maxN rd s

/-- FROMHEX (R89): the whole register on success; on an error STATUS only, and `V[rd]` stays as it was. -/
def execFromhex (rd : Reg) (s : State) : Host.Outcome State Fault Refusal :=
  match parseHex s.cfg.n s.cfg.order s.hinText with
  | .ok v => .next (s.writeResult rd v)
  | .error e => .next (s.raiseStatus e.code)

end Sys2Proof.Machine
end

