-- ==== Sys2Proof/Machine/Bitwise.lean ====
section
/-! DEFINITION. The bitwise and shift engine (42_bitwise_shift.md): AND, OR, XOR, NOT, SHL, SHR. -/

namespace Sys2Proof.Machine

/-- A boolean operator limb by limb on N limbs (R120 to R122). -/
def limbwise (f : Limb → Limb → Limb) (n : Nat) (a b : Value) : Value :=
  (List.range n).map fun i => f (limbAt a i) (limbAt b i)

/-- Limb-wise AND (R120). -/
def andN : Nat → Value → Value → Value := limbwise fun x y => x &&& y

/-- Limb-wise OR (R121). -/
def orN : Nat → Value → Value → Value := limbwise fun x y => x ||| y

/-- Limb-wise XOR (R122). -/
def xorN : Nat → Value → Value → Value := limbwise fun x y => x ^^^ y

/-- Limb-wise complement, every limb (R123). -/
def notN (n : Nat) (a : Value) : Value := (List.range n).map fun i => ~~~(limbAt a i)

/-- `shl_N(A, s)` (R124). -/
def shlN (n : Nat) (a : Value) (s : Nat) : Value :=
  if s = 0 then a
  else if 64 * n ≤ s then zeroN n
  else
    let ls := s / 64
    let bs := s % 64
    (List.range n).map fun i =>
      if i < ls then 0#64
      else if bs = 0 then limbAt a (i - ls)
      else
        let hi := if ls + 1 ≤ i then limbAt a (i - ls - 1) else 0#64
        shl64 (limbAt a (i - ls)) bs ||| shr64 hi (64 - bs)

/-- `shr_N(A, s)` (R126). -/
def shrN (n : Nat) (a : Value) (s : Nat) : Value :=
  if s = 0 then a
  else if 64 * n ≤ s then zeroN n
  else
    let ls := s / 64
    let bs := s % 64
    (List.range n).map fun i =>
      let x := if i + ls < n then limbAt a (i + ls) else 0#64
      let y := if i + ls + 1 < n then limbAt a (i + ls + 1) else 0#64
      if bs = 0 then x else shr64 x bs ||| shl64 y (64 - bs)

/-- AND (R120). -/
def execAnd (rd rs1 rs2 : Reg) (s : State) : Host.Outcome State Fault Refusal := formatDST andN rd rs1 rs2 s

/-- OR (R121). -/
def execOr (rd rs1 rs2 : Reg) (s : State) : Host.Outcome State Fault Refusal := formatDST orN rd rs1 rs2 s

/-- XOR (R122). -/
def execXor (rd rs1 rs2 : Reg) (s : State) : Host.Outcome State Fault Refusal := formatDST xorN rd rs1 rs2 s

/-- NOT (R123). -/
def execNot (rd rs1 : Reg) (s : State) : Host.Outcome State Fault Refusal := formatDS notN rd rs1 s

/-- SHL (R125). -/
def execShl (rd rs1 : Reg) (imm : BitVec 64) (s : State) : Host.Outcome State Fault Refusal :=
  formatDSI shlN rd rs1 imm s

/-- SHR (R127). -/
def execShr (rd rs1 : Reg) (imm : BitVec 64) (s : State) : Host.Outcome State Fault Refusal :=
  formatDSI shrN rd rs1 imm s

end Sys2Proof.Machine
end

