-- ==== Sys2Proof/Machine/Arithmetic.lean ====
section
/-! DEFINITION. The arithmetic engine (41_arithmetic.md): ADD, SUB, MUL. Every result is modulo 2^(64·N); the carry,
the borrow and the high half of a product are discarded (R110, 10_state.md R26). -/

namespace Sys2Proof.Machine

/-- One limb of the adder with its two overflow checks: the sum limb and the carry out (R100). -/
def addLimb (x y : Limb) (c : Bool) : Limb × Bool :=
  let s1 := x + y
  let o1 := decide (2 ^ 64 ≤ x.toNat + y.toNat)
  let cin : Limb := if c then 1 else 0
  let s2 := s1 + cin
  let o2 := decide (2 ^ 64 ≤ s1.toNat + cin.toNat)
  (s2, o1 || o2)

/-- The ripple from limb 0 on, the carry out of the last limb discarded (R100). -/
def addRipple : Value → Value → Bool → Value
  | x :: xs, y :: ys, c => (addLimb x y c).1 :: addRipple xs ys (addLimb x y c).2
  | _, _, _ => []

/-- `add_N(A, B)` (R100). -/
def addN (_n : Nat) (a b : Value) : Value := addRipple a b false

/-- One limb of the subtractor: the difference limb and the borrow out (R102). -/
def subLimb (x y : Limb) (b : Bool) : Limb × Bool :=
  let d1 := x - y
  let u1 := decide (x.toNat < y.toNat)
  let bin : Limb := if b then 1 else 0
  let d2 := d1 - bin
  let u2 := decide (d1.toNat < bin.toNat)
  (d2, u1 || u2)

/-- The ripple from limb 0 on, the borrow out of the last limb discarded (R102). -/
def subRipple : Value → Value → Bool → Value
  | x :: xs, y :: ys, b => (subLimb x y b).1 :: subRipple xs ys (subLimb x y b).2
  | _, _, _ => []

/-- `sub_N(A, B)` (R102). -/
def subN (_n : Nat) (a b : Value) : Value := subRipple a b false

/-- `mul_N(A, B)` by its value law, which R105 asks a model to take as the definition (R104, R105, log 19). -/
def mulN (n : Nat) (a b : Value) : Value := limbsOf n (val a * val b)

/-- Bit `p` of a value (R104). -/
def bitAt (b : Value) (p : Nat) : Bool := (limbAt b (p / 64)).getLsbD (p % 64)

/-- The schoolbook multiplier after the first `k` bits of B: shift and add (R104). -/
def mulShiftAddUpTo (n : Nat) (a b : Value) : Nat → Value
  | 0 => zeroN n
  | p + 1 =>
    let acc := mulShiftAddUpTo n a b p
    if bitAt b p then addN n acc (shlN n a p) else acc

/-- The source's reference multiplier (R104). -/
def mulShiftAdd (n : Nat) (a b : Value) : Value := mulShiftAddUpTo n a b (64 * n)

/-- One row of the limb-parallel multiplier: add `x · A` with its carries into the limbs `r` of R from i on; the carry
out of the last limb is discarded (R105, the inner loop). -/
def mulRow (x : Limb) : Value → Value → Nat → Value
  | a :: as, r :: rs, carry =>
    let t := r.toNat + a.toNat * x.toNat + carry
    BitVec.ofNat 64 t :: mulRow x as rs (t / 2 ^ 64)
  | _, rs, _ => rs

/-- The limb-parallel multiplier's outer loop over the limbs of B: after row i, limb i of R is final and row i + 1 works
on the limbs above it (R105). -/
def mulRows (a : Value) : Value → Value → Value
  | x :: xs, r =>
    match mulRow x a r 0 with
    | [] => []
    | r0 :: rs => r0 :: mulRows a xs rs
  | [], r => r

/-- The limb-parallel multiplier (R105). -/
def mulLimbParallel (n : Nat) (a b : Value) : Value := mulRows a b (zeroN n)

/-- ADD (R101). -/
def execAdd (rd rs1 rs2 : Reg) (s : State) : Host.Outcome State Fault Refusal := formatDST addN rd rs1 rs2 s

/-- SUB: RS1 minus RS2 (R103). -/
def execSub (rd rs1 rs2 : Reg) (s : State) : Host.Outcome State Fault Refusal := formatDST subN rd rs1 rs2 s

/-- MUL (R106). -/
def execMul (rd rs1 rs2 : Reg) (s : State) : Host.Outcome State Fault Refusal := formatDST mulN rd rs1 rs2 s

end Sys2Proof.Machine
end

