-- ==== Sys2Proof/Machine/Serialization.lean ====
section
/-! DEFINITION. The serialization layer (43_serialization.md): TOHEX and DISPLAY. -/

namespace Sys2Proof.Machine

/-- `digit(n)` of a nibble, lower case (R140). -/
def hexDigit (n : Nat) : Byte := if n ≤ 9 then BitVec.ofNat 8 (0x30 + n) else BitVec.ofNat 8 (0x61 + (n - 10))

/-- The 16 zero-padded digits of one limb, most significant first (R141). -/
def limbText (x : Limb) : List Byte := (List.range 16).map fun r => hexDigit (x.toNat / 16 ^ (15 - r) % 16)

/-- `hex_N(A)`: most significant limb first, 16·N bytes (R141). -/
def hexN (n : Nat) (a : Value) : List Byte := (List.range n).flatMap fun q => limbText (limbAt a (n - 1 - q))

/-- `display_N(A)`: `0x` and the canonical hex (R143). -/
def displayN (n : Nat) (a : Value) : List Byte := [0x30#8, 0x78#8] ++ hexN n a

/-- TOHEX (R142): `HOUT[16·N]` and `HOUT[16·N+1]` are not written. -/
def execTohex (rs1 : Reg) (s : State) : Host.Outcome State Fault Refusal := formatS hexN (fun n => 16 * n) rs1 s

/-- DISPLAY (R144). -/
def execDisplay (rs1 : Reg) (s : State) : Host.Outcome State Fault Refusal :=
  formatS displayN (fun n => 16 * n + 2) rs1 s

end Sys2Proof.Machine
end

