-- ==== Sys2Proof/Machine/Dispatch.lean ====
section
/-! DEFINITION. The dispatch of a decoded command to its meaning: one arm per constructor of Instr. -/

namespace Sys2Proof.Machine

/-- The meaning of a command (30_encoding.md R66). Every command answers a next state. -/
def exec (i : Instr) (s : State) : Host.Outcome State Fault Refusal :=
  match i with
  | .zero rd => Sys2Proof.Machine.execZero rd s
  | .one rd => Sys2Proof.Machine.execOne rd s
  | .fromnat rd imm => Sys2Proof.Machine.execFromnat rd imm s
  | .max rd => Sys2Proof.Machine.execMax rd s
  | .fromhex rd => Sys2Proof.Machine.execFromhex rd s
  | .add rd rs1 rs2 => Sys2Proof.Machine.execAdd rd rs1 rs2 s
  | .sub rd rs1 rs2 => Sys2Proof.Machine.execSub rd rs1 rs2 s
  | .mul rd rs1 rs2 => Sys2Proof.Machine.execMul rd rs1 rs2 s
  | .and rd rs1 rs2 => Sys2Proof.Machine.execAnd rd rs1 rs2 s
  | .or rd rs1 rs2 => Sys2Proof.Machine.execOr rd rs1 rs2 s
  | .xor rd rs1 rs2 => Sys2Proof.Machine.execXor rd rs1 rs2 s
  | .not rd rs1 => Sys2Proof.Machine.execNot rd rs1 s
  | .shl rd rs1 imm => Sys2Proof.Machine.execShl rd rs1 imm s
  | .shr rd rs1 imm => Sys2Proof.Machine.execShr rd rs1 imm s
  | .tohex rs1 => Sys2Proof.Machine.execTohex rs1 s
  | .display rs1 => Sys2Proof.Machine.execDisplay rs1 s

end Sys2Proof.Machine
end

