-- ==== Sys2Proof/Machine/Ports.lean ====
section
/-! DEFINITION. The host's ports (10_state.md R33) and the host table (60_exceptions.md R174): what each action of the
host does, and how a command word written to CMD runs. -/

namespace Sys2Proof.Machine

/-- A word written to CMD runs at once: a legal word its command, an illegal word STATUS := ILLEGAL_COMMAND and nothing
else of the block (30_encoding.md R67, R69; 60_exceptions.md R163). -/
def runWord (w : CmdWord) (s : State) : Host.Outcome State Fault Refusal :=
  match decode s.cfg.nreg w with
  | .ok i => exec i s.issueCommand
  | .error _ => .next (s.issueCommand.raiseStatus .illegalCommand)

/-- One delivered byte: the command runs when its last byte arrives (30_encoding.md R61; log 13). -/
def deliverByte (b : Byte) (s : State) : Host.Outcome State Fault Refusal :=
  if s.delivery.length < 15 then .next { s with delivery := s.delivery ++ [b] }
  else runWord (bytesWord (s.delivery ++ [b])) s

/-- The host waits for its CMD write to return before its next access (60_exceptions.md R174): while the bytes of a
command are being delivered any other access has no move (log 13). -/
def whenIdle (s : State) (o : Host.Outcome State Fault Refusal) : Host.Outcome State Fault Refusal :=
  if s.delivery.isEmpty then o else .fault .accessDuringCommand

/-- What a read returns to the host (log 22). -/
def State.giveHost (width value : Nat) (s : State) : State := { s with returned := { width := width, value := value } }

/-- Write bytes to HIN: storing only (20_memory.md R47), the whole access inside HIN (R45). -/
def writeHin (k : Nat) (bs : List Byte) (s : State) : Host.Outcome State Fault Refusal :=
  if k + bs.length ≤ s.cfg.hinCap then .next { s with hin := s.hin.writeBlock k bs }
  else .fault (.pastEndOfSpace .hin k bs.length)

/-- Write HIN_LEN: the legal values are `0 .. HIN_CAP` (10_state.md R28). -/
def writeHinLen (v : BitVec 64) (s : State) : Host.Outcome State Fault Refusal :=
  if v.toNat ≤ s.cfg.hinCap then .next { s with hinLen := v } else .fault (.hinLenAboveCap v)

/-- The byte a host read of a space gives (10_state.md R29, R31; 20_memory.md R43). -/
def State.spaceByte (s : State) (sp : Space) (k : Nat) : Byte :=
  match sp with
  | .hin => s.hinByteAt k
  | .hout => s.houtByteAt k
  | .vview => s.vviewByte k

/-- A VVIEW read of an unwritten register is the model fault of 10_state.md R23: the lowest such byte of the access is
noted in the fault mark (log 21). -/
def State.noteView (s : State) (k : Nat) : Nat → State
  | 0 => s
  | w + 1 => (s.noteView k w).noteRead (viewReg s.cfg (k + w))

/-- Read `w` bytes of a space from index `k`, composed little-endian (20_memory.md R44, R45). No read changes the block
(R47). -/
def readSpace (sp : Space) (k w : Nat) (s : State) : Host.Outcome State Fault Refusal :=
  if k + w ≤ spaceSize s.cfg sp then
    let seen : State := match sp with
      | .hin => s
      | .hout => s
      | .vview => s.noteView k w
    .next (seen.giveHost w (leNat ((List.range w).map fun j => s.spaceByte sp (k + j))))
  else .fault (.pastEndOfSpace sp k w)

/-- What an action of the host does (60_exceptions.md R174). -/
def act (a : HostAction) (s : State) : Host.Outcome State Fault Refusal :=
  match a with
  | .writeCmd w => whenIdle s (runWord w s)
  | .writeCmdByte b => deliverByte b s
  | .writeHin k bs => whenIdle s (writeHin k bs s)
  | .writeHinLen v => whenIdle s (writeHinLen v s)
  | .readStatus => whenIdle s (.next (s.giveHost 1 s.statusByte.toNat))
  | .readHinLen => whenIdle s (.next (s.giveHost 8 s.hinLen.toNat))
  | .readHoutLen => whenIdle s (.next (s.giveHost 8 s.houtLen.toNat))
  | .readBytes sp k w => whenIdle s (readSpace sp k w s)
  | .reset => if s.delivery.isEmpty then .next s.resetBlock else .next (s.refuseAction .resetDuringCommand)
  | .writeReadOnly p => whenIdle s (.fault (.writeToReadOnlyPort p))
  | .readCmd => whenIdle s (.fault .readOfCmd)
  | .duringCommand _ .access => .fault .accessDuringCommand
  | .duringCommand _ .reset => .next (s.refuseAction .resetDuringCommand)
  | .suppressedHex _ => .next (s.refuseAction .suppressedRendering)

/-- The host's action under the refusal mark: while it is set the model gives nothing but a reset a meaning, and a reset
"starts a new launch" (60_exceptions.md R173, 70_reset_and_hazards.md R180; log 4). -/
def perform (a : HostAction) (s : State) : Host.Outcome State Fault Refusal :=
  match s.refusalMark, a with
  | none, a => act a s
  | some _, .reset => act .reset s
  | some m, _ => .refused (.underRefusalMark m)

/-- The next action of the host, in its issue order (20_memory.md R50). With none pending the block is idle and holds
its state (60_exceptions.md R177, 70_reset_and_hazards.md R181; log 11). Parameters that are no instance of the block
are refused (92_eei_decisions.md D2, log 9). -/
def runNext (s : State) : Host.Outcome State Fault Refusal :=
  if s.cfg.wf then
    match s.pending with
    | [] => .next s
    | a :: rest => perform a { s with pending := rest }
  else .refused .invalidConfiguration

end Sys2Proof.Machine
end

