-- ==== Sys2Proof/Machine/Step.lean ====
section
/-! DEFINITION. One step of the machine: the host's next action, a command being one atomic step (20_memory.md R46,
70_reset_and_hazards.md R189). -/

namespace Sys2Proof.Machine

/-- One step. -/
def step (s : State) : Host.Outcome State Fault Refusal := runNext s

/-- The host's next action is to write to CMD the word whose bits are `w`. The block fetches nothing (10_state.md R25),
so this stands for the host's load of a program of one command (log 11); a delivery in progress and a refusal mark,
under which no command runs, are dropped (log 26). -/
def State.withFetchWord (s : State) (nbits w : Nat) : State :=
  { s with
    pending := .writeCmd (BitVec.ofNat 128 (w % 2 ^ nbits)) :: s.pending
    delivery := []
    refusalMark := none }

end Sys2Proof.Machine
end

