-- ==== Sys2Proof/Machine/Assembler.lean ====
section
/-! DEFINITION. The assembly notation (30_encoding.md R72), the pseudo-instructions (R73) and the directives (R74): a
source line stands for a command or for host actions. It is notation only: nothing in the step reads it. Spaces around
words and operands, and a comma without a space after it, are the model's reading of R72 (log 23). -/

namespace Sys2Proof.Machine

/-- The lower-case mnemonic (R72). -/
def asmName : Instr → List Char
  | .zero _ => "zero".toList
  | .one _ => "one".toList
  | .fromnat _ _ => "fromnat".toList
  | .max _ => "max".toList
  | .fromhex _ => "fromhex".toList
  | .add _ _ _ => "add".toList
  | .sub _ _ _ => "sub".toList
  | .mul _ _ _ => "mul".toList
  | .and _ _ _ => "and".toList
  | .or _ _ _ => "or".toList
  | .xor _ _ _ => "xor".toList
  | .not _ _ => "not".toList
  | .shl _ _ _ => "shl".toList
  | .shr _ _ _ => "shr".toList
  | .tohex _ => "tohex".toList
  | .display _ => "display".toList

/-- A register is written `v0` to `v15` (R72). -/
def asmReg (r : Reg) : List Char := 'v' :: Nat.toDigits 10 r.val

/-- An immediate in decimal (R72). -/
def asmImm (v : BitVec 64) : List Char := Nat.toDigits 10 v.toNat

/-- The operands in the order of the format (R72). -/
def asmOperands : Instr → List (List Char)
  | .zero rd => [asmReg rd]
  | .one rd => [asmReg rd]
  | .fromnat rd imm => [asmReg rd, asmImm imm]
  | .max rd => [asmReg rd]
  | .fromhex rd => [asmReg rd]
  | .add rd rs1 rs2 => [asmReg rd, asmReg rs1, asmReg rs2]
  | .sub rd rs1 rs2 => [asmReg rd, asmReg rs1, asmReg rs2]
  | .mul rd rs1 rs2 => [asmReg rd, asmReg rs1, asmReg rs2]
  | .and rd rs1 rs2 => [asmReg rd, asmReg rs1, asmReg rs2]
  | .or rd rs1 rs2 => [asmReg rd, asmReg rs1, asmReg rs2]
  | .xor rd rs1 rs2 => [asmReg rd, asmReg rs1, asmReg rs2]
  | .not rd rs1 => [asmReg rd, asmReg rs1]
  | .shl rd rs1 imm => [asmReg rd, asmReg rs1, asmImm imm]
  | .shr rd rs1 imm => [asmReg rd, asmReg rs1, asmImm imm]
  | .tohex rs1 => [asmReg rs1]
  | .display rs1 => [asmReg rs1]

/-- The line of a command, as a disassembler prints it (R72, R73). -/
def disassemble (i : Instr) : List Char :=
  asmName i ++ [' '] ++ List.intercalate [',', ' '] (asmOperands i)

/-- The pseudo-instructions (R73). -/
inductive Pseudo where
  | mov (rd rs : Reg)
  | li (rd : Reg) (imm : BitVec 64)
  | clr (rd : Reg)
  | sqr (rd rs : Reg)
deriving DecidableEq, Repr

/-- The single-command expansion of a pseudo-instruction (R73). -/
def Pseudo.expand : Pseudo → Instr
  | .mov rd rs => .or rd rs rs
  | .li rd imm => .fromnat rd imm
  | .clr rd => .zero rd
  | .sqr rd rs => .mul rd rs rs

/-- A line of a program: a command, a pseudo-instruction, or a directive (R72 to R74). -/
inductive SourceLine where
  | command (i : Instr)
  | pseudo (p : Pseudo)
  | hin (text : List Byte)
  | expectStatus (c : Nat)
deriving DecidableEq, Repr

/-- The host actions of a line: a command is one CMD write; `.hin` writes `HIN[0..]` and sets HIN_LEN to the count of
bytes; `.expect_status c` is a read of STATUS (R74), whose `c` the model compares with nothing (log 23). -/
def SourceLine.actions : SourceLine → List HostAction
  | .command i => [.writeCmd (encode i)]
  | .pseudo p => [.writeCmd (encode p.expand)]
  | .hin text => [.writeHin 0 text, .writeHinLen (BitVec.ofNat 64 text.length)]
  | .expectStatus _ => [.readStatus]

/-- A double quote. -/
def quoteChar : Char := Char.ofNat 34

/-- Leading and trailing spaces removed; no other character counts as a space (log 23). -/
def trimSpaces (cs : List Char) : List Char :=
  ((cs.dropWhile (· == ' ')).reverse.dropWhile (· == ' ')).reverse

/-- The pieces between separators. -/
def splitAtChar (sep : Char) : List Char → List (List Char)
  | [] => [[]]
  | c :: cs =>
    if c = sep then [] :: splitAtChar sep cs
    else
      match splitAtChar sep cs with
      | [] => [[c]]
      | p :: ps => (c :: p) :: ps

/-- A register operand (R72). -/
def readReg (cs : List Char) : Option Reg := (List.finRange 16).find? fun r => asmReg r == cs

/-- The value of a digit character in base 10 or 16, if it is one. -/
def digitValue (base : Nat) (c : Char) : Option Nat :=
  let v :=
    if '0'.toNat ≤ c.toNat ∧ c.toNat ≤ '9'.toNat then c.toNat - '0'.toNat
    else if 'a'.toNat ≤ c.toNat ∧ c.toNat ≤ 'f'.toNat then c.toNat - 'a'.toNat + 10
    else if 'A'.toNat ≤ c.toNat ∧ c.toNat ≤ 'F'.toNat then c.toNat - 'A'.toNat + 10
    else base
  if v < base then some v else none

/-- The number of a non-empty run of digits. -/
def readDigits (base : Nat) (cs : List Char) : Option Nat :=
  if cs.isEmpty then none
  else cs.foldl (fun acc c => acc.bind fun n => (digitValue base c).map fun d => n * base + d) (some 0)

/-- An immediate, in decimal or as `0x` and hex digits (R72). -/
def readNumber : List Char → Option Nat
  | '0' :: 'x' :: hs => readDigits 16 hs
  | cs => readDigits 10 cs

/-- An immediate must lie in `[0, 2^64)` (R72). -/
def readImm (cs : List Char) : Option (BitVec 64) :=
  (readNumber cs).bind fun n => if n < 2 ^ 64 then some (BitVec.ofNat 64 n) else none

/-- Operands of format D or S. -/
def readOneReg (mk : Reg → SourceLine) : List (List Char) → Option SourceLine
  | [a] => (readReg a).map mk
  | _ => none

/-- Operands of format DS. -/
def readTwoRegs (mk : Reg → Reg → SourceLine) : List (List Char) → Option SourceLine
  | [a, b] => (readReg a).bind fun x => (readReg b).map fun y => mk x y
  | _ => none

/-- Operands of format DST. -/
def readThreeRegs (mk : Reg → Reg → Reg → SourceLine) : List (List Char) → Option SourceLine
  | [a, b, c] => (readReg a).bind fun x => (readReg b).bind fun y => (readReg c).map fun z => mk x y z
  | _ => none

/-- Operands of format DI. -/
def readRegImm (mk : Reg → BitVec 64 → SourceLine) : List (List Char) → Option SourceLine
  | [a, b] => (readReg a).bind fun x => (readImm b).map fun v => mk x v
  | _ => none

/-- Operands of format DSI. -/
def readTwoRegsImm (mk : Reg → Reg → BitVec 64 → SourceLine) : List (List Char) → Option SourceLine
  | [a, b, c] => (readReg a).bind fun x => (readReg b).bind fun y => (readImm c).map fun v => mk x y v
  | _ => none

/-- A command or a pseudo-instruction, by its mnemonic and operands (R72, R73). -/
def readCommand (name : List Char) (ops : List (List Char)) : Option SourceLine :=
  if name = "zero".toList then readOneReg (fun a => .command (.zero a)) ops
  else if name = "one".toList then readOneReg (fun a => .command (.one a)) ops
  else if name = "fromnat".toList then readRegImm (fun a v => .command (.fromnat a v)) ops
  else if name = "max".toList then readOneReg (fun a => .command (.max a)) ops
  else if name = "fromhex".toList then readOneReg (fun a => .command (.fromhex a)) ops
  else if name = "add".toList then readThreeRegs (fun a b c => .command (.add a b c)) ops
  else if name = "sub".toList then readThreeRegs (fun a b c => .command (.sub a b c)) ops
  else if name = "mul".toList then readThreeRegs (fun a b c => .command (.mul a b c)) ops
  else if name = "and".toList then readThreeRegs (fun a b c => .command (.and a b c)) ops
  else if name = "or".toList then readThreeRegs (fun a b c => .command (.or a b c)) ops
  else if name = "xor".toList then readThreeRegs (fun a b c => .command (.xor a b c)) ops
  else if name = "not".toList then readTwoRegs (fun a b => .command (.not a b)) ops
  else if name = "shl".toList then readTwoRegsImm (fun a b v => .command (.shl a b v)) ops
  else if name = "shr".toList then readTwoRegsImm (fun a b v => .command (.shr a b v)) ops
  else if name = "tohex".toList then readOneReg (fun a => .command (.tohex a)) ops
  else if name = "display".toList then readOneReg (fun a => .command (.display a)) ops
  else if name = "mov".toList then readTwoRegs (fun a b => .pseudo (.mov a b)) ops
  else if name = "li".toList then readRegImm (fun a v => .pseudo (.li a v)) ops
  else if name = "clr".toList then readOneReg (fun a => .pseudo (.clr a)) ops
  else if name = "sqr".toList then readTwoRegs (fun a b => .pseudo (.sqr a b)) ops
  else if name = ".expect_status".toList then
    match ops with
    | [c] => (readNumber c).map SourceLine.expectStatus
    | _ => none
  else none

/-- The bytes of an ASCII text (20_memory.md R42). R74 gives no byte form for a character outside ASCII: here a `.hin`
text that holds one makes the line no source line (log 23, DESIGN CHOICE). -/
def asciiBytes (cs : List Char) : Option (List Byte) :=
  cs.mapM fun c => if c.toNat < 128 then some (BitVec.ofNat 8 c.toNat) else none

/-- The text of a `.hin` line: what stands between the two double quotes (R74). R72 and R74 do not say which of `"` and
`;` comes first: here a `;` between the quotes belongs to the text, a `;` after the second quote starts a comment, and
quotes are counted over the whole line, so that a comment that holds a double quote makes the line no source line
(log 23, DESIGN CHOICE). -/
def readHin (rest : List Char) : Option SourceLine :=
  match splitAtChar quoteChar (trimSpaces rest) with
  | [[], text, after] =>
    if (after.takeWhile (· ≠ ';')).all (· == ' ') then (asciiBytes text).map SourceLine.hin else none
  | _ => none

/-- One line of source: `some []` for a blank or comment line, the host actions of a command or directive otherwise,
`none` for a line that is no source line (R72 to R74). -/
def assembleLine (line : List Char) : Option (List HostAction) :=
  let body := line.dropWhile (· == ' ')
  let name := body.takeWhile fun c => c ≠ ' ' ∧ c ≠ ';'
  let rest := body.drop name.length
  if name.isEmpty then some []
  else if name = ".hin".toList then (readHin rest).map SourceLine.actions
  else
    let ops := (splitAtChar ',' (trimSpaces (rest.takeWhile (· ≠ ';')))).map trimSpaces
    (readCommand name ops).map SourceLine.actions

end Sys2Proof.Machine
end

