-- ==== Sys2Proof/Safety.lean ====
section
/-! DEFINITION. The terms the claims use: the invariant of every reachable state, what a command's completion means
field by field (its result and its frame), and what it means that a host action leaves the block alone. -/

namespace Sys2Proof.Safety

open Sys2Proof.Machine

/-- HOUT holds exactly this text in `HOUT[0 .. HOUT_LEN-1]` (10_state.md R30). -/
def HoutHolds (s : State) (text : List Byte) : Prop :=
  s.houtLen.toNat = text.length ∧ ∀ j, j < text.length → s.hout.read j = text[j]?

/-- The text in HOUT is empty, a canonical hex text or a display text: HOUT_LEN is 0, 16·N or 16·N + 2 (10_state.md
R36), and every text the block emits is canonical (43_serialization.md R146, R147). -/
def OutputCanonical (s : State) : Prop :=
  s.houtLen.toNat = 0 ∨
    ∃ v : Value, v.length = s.cfg.n ∧ (HoutHolds s (hexN s.cfg.n v) ∨ HoutHolds s (displayN s.cfg.n v))

/-- The invariant of the machine. -/
structure Invariant (s : State) : Prop where
  /-- The parameters are an instance of the block (00_scope.md R5, R7; log 8). -/
  config : s.cfg.wf = true
  /-- Every register holds exactly N limbs (10_state.md R21). -/
  limbs : ∀ r : Reg, (s.slot r).limbs.length = s.cfg.n
  /-- A register number at or above NREG names no register: it is never written (30_encoding.md R62). -/
  absent : ∀ r : Reg, s.cfg.nreg ≤ r.val → (s.slot r).written = false
  /-- HIN_LEN is at most HIN_CAP (10_state.md R28, R36). -/
  hinLen : s.hinLen.toNat ≤ s.cfg.hinCap
  /-- HIN is canonical and within its capacity (10_state.md R29). -/
  hin : s.hin.wf = true ∧ ∀ c ∈ s.hin, c.1 < s.cfg.hinCap
  /-- HOUT is canonical and within its 16·N + 2 bytes (10_state.md R31). -/
  hout : s.hout.wf = true ∧ ∀ c ∈ s.hout, c.1 < 16 * s.cfg.n + 2
  /-- The text in HOUT. -/
  output : OutputCanonical s
  /-- Fewer than the 16 bytes of a command are in delivery (30_encoding.md R61). -/
  delivery : s.delivery.length < 16

/-- Every register but `rd` is as it was (10_state.md R24). -/
def KeepsRegsBut (rd : Reg) (s t : State) : Prop := ∀ r : Reg, r ≠ rd → t.slot r = s.slot r

/-- HIN and HIN_LEN are as they were: every byte reads as before. -/
def KeepsInput (s t : State) : Prop := t.hinLen = s.hinLen ∧ ∀ a, t.hin.read a = s.hin.read a

/-- HOUT and HOUT_LEN are as they were: every byte reads as before. -/
def KeepsOutput (s t : State) : Prop := t.houtLen = s.houtLen ∧ ∀ a, t.hout.read a = s.hout.read a

/-- The parameters, the counters of the free values, the refusal mark and the host's own fields are as they were. -/
def KeepsHarness (s t : State) : Prop :=
  t.cfg = s.cfg ∧ t.launch = s.launch ∧ t.draws = s.draws ∧ t.pending = s.pending ∧ t.delivery = s.delivery ∧
    t.ci = s.ci ∧ t.returned = s.returned ∧ t.refusalMark = s.refusalMark

/-- The command wrote `v` to `rd` with STATUS = OK, and changed nothing else. -/
structure WritesResult (rd : Reg) (v : Value) (s t : State) : Prop where
  result : t.slot rd = { written := true, limbs := v }
  others : KeepsRegsBut rd s t
  status : t.status = .ok
  mark : t.faultMark = s.faultMark
  input : KeepsInput s t
  output : KeepsOutput s t
  harness : KeepsHarness s t

/-- The command wrote `text` to HOUT from index 0 and its length to HOUT_LEN with STATUS = OK, and changed nothing else:
no register, no byte of HIN, and no byte of HOUT at or above the text's length. -/
structure EmitsText (text : List Byte) (s t : State) : Prop where
  bytes : ∀ a, a < text.length → t.hout.read a = text[a]?
  above : ∀ a, text.length ≤ a → t.hout.read a = s.hout.read a
  length : t.houtLen = BitVec.ofNat 64 text.length
  registers : ∀ r : Reg, t.slot r = s.slot r
  status : t.status = .ok
  mark : t.faultMark = s.faultMark
  input : KeepsInput s t
  harness : KeepsHarness s t

/-- The command has no result, because its source `r` is unwritten (10_state.md R23): the fault mark notes `r`, a
destination holds N limbs of which nothing is said, nothing is said of STATUS, and nothing else changed (log 1). -/
structure NoResult (r : Reg) (dest : Option Reg) (s t : State) : Prop where
  mark : t.faultMark = s.faultMark.or (some (.unwrittenRead r))
  result : ∀ rd, dest = some rd → (t.slot rd).written = true ∧ (t.slot rd).limbs.length = s.cfg.n
  others : ∀ q, dest ≠ some q → t.slot q = s.slot q
  input : KeepsInput s t
  output : KeepsOutput s t
  harness : KeepsHarness s t

/-- Only STATUS changed, to `c` (00_scope.md R13, `raise Status(c)`). -/
structure OnlyStatus (c : StatusCode) (s t : State) : Prop where
  status : t.status = c
  registers : ∀ r : Reg, t.slot r = s.slot r
  mark : t.faultMark = s.faultMark
  input : KeepsInput s t
  output : KeepsOutput s t
  harness : KeepsHarness s t

/-- The block's own record (10_state.md R36) and the parameters are as they were. -/
def SameBlock (s t : State) : Prop :=
  t.cfg = s.cfg ∧ (∀ r : Reg, t.slot r = s.slot r) ∧ t.status = s.status ∧ KeepsInput s t ∧ KeepsOutput s t

/-- The word of a command: its OP and format are these, RD, RS1 and RS2 hold its destination and its sources in order,
RSV and every unused field are zero (30_encoding.md R60, R62, R64 to R66). -/
structure EncodedAs (i : Instr) (op : BitVec 8) (f : Format) : Prop where
  op : fieldOp (encode i) = op
  rd : ∀ r, i.dest = some r → regOf (fieldRd (encode i)) = r
  rs1 : ∀ r, i.sources[0]? = some r → regOf (fieldRs1 (encode i)) = r
  rs2 : ∀ r, i.sources[1]? = some r → regOf (fieldRs2 (encode i)) = r
  rsv : fieldRsv (encode i) = 0
  unused : f.unusedZero (encode i) = true

/-- Every source register of the command has been written since reset (70_reset_and_hazards.md R182). -/
def SourcesWritten (i : Instr) (s : State) : Prop := ∀ r ∈ i.sources, (s.slot r).written = true

/-- A host action that reads a port (60_exceptions.md R174). -/
def IsRead : HostAction → Prop
  | .readStatus => True
  | .readHinLen => True
  | .readHoutLen => True
  | .readBytes _ _ _ => True
  | .writeCmd _ => False
  | .writeCmdByte _ => False
  | .writeHin _ _ => False
  | .writeHinLen _ => False
  | .reset => False
  | .writeReadOnly _ => False
  | .readCmd => False
  | .duringCommand _ _ => False
  | .suppressedHex _ => False

/-- A host action that reaches a port as a whole access (10_state.md R33): every read and write but the delivery of a
command's byte. -/
def IsAccess : HostAction → Prop
  | .writeCmd _ => True
  | .writeHin _ _ => True
  | .writeHinLen _ => True
  | .readStatus => True
  | .readHinLen => True
  | .readHoutLen => True
  | .readBytes _ _ _ => True
  | .writeReadOnly _ => True
  | .readCmd => True
  | .writeCmdByte _ => False
  | .reset => False
  | .duringCommand _ _ => False
  | .suppressedHex _ => False

/-- A host read of `w` bytes completed: it returned the bytes `byte 0`, `byte 1`, ... composed little-endian (20_memory.md
R44). -/
def ReturnsBytes (w : Nat) (byte : Nat → Byte) (t : State) : Prop :=
  t.returned.width = w ∧ t.returned.value < 256 ^ w ∧
    ∀ j, j < w → t.returned.value / 256 ^ j % 256 = (byte j).toNat

end Sys2Proof.Safety
end

