-- ==== Sys2Proof/Certificates/Slice0/Obligations.lean ====
section
/-! DEFINITION. The statements about the BigUint<N> block for the provers. Each docstring names the rule of spec/ it
formalises. A law the spec marks [derived] is the spec's own inference, and has basis 'derived'. A command with an
unwritten source has no result (10_state.md R23): what the model does then is in one statement, UnwrittenSourceIsMarked
(log 1, log 3), and the statements of a command's result take its sources as written (70_reset_and_hazards.md R182). -/

open Sys2Proof Sys2Proof.Machine Sys2Proof.Safety

/-! ## Encoding -/

/-- Words written out from 30_encoding.md R60, R66, R72 and from the examples of the command rules decode to the command
they stand for; words of 95_test_vectors.md section 2 that are illegal decode to the error that says why. -/
def Obligations.SpecWordsDecode : Prop :=
  decode 16 0x00000000000000000000000000000301#128 = .ok (.zero 3) ∧
  decode 16 0x000000000000007b0000000000000003#128 = .ok (.fromnat 0 123) ∧
  decode 16 0x00000000000000000000000000010210#128 = .ok (.add 2 0 1) ∧
  decode 16 0x00000000000000000000000000013411#128 = .ok (.sub 4 3 1) ∧
  decode 16 0x00000000000000000000000000000123#128 = .ok (.not 1 0) ∧
  decode 16 0x00000000000000400000000000000124#128 = .ok (.shl 1 0 64) ∧
  decode 16 0x00000000000000000000000000002031#128 = .ok (.display 2) ∧
  decode 16 0x00000000000000000000000000000006#128 = .error .unknownOp ∧
  decode 16 0x00000000000000008000000000010210#128 = .error .reservedNonzero ∧
  decode 16 0x00000000000000010000000000010210#128 = .error .unusedFieldNonzero ∧
  decode 4 0x00000000000000000000000000010410#128 = .error .registerOutOfRange

/-- Decode and encode agree: the word of every legal command decodes to that command, with every register number and
every immediate the encoding admits (30_encoding.md R60, R62, R65, R66, R69). -/
def Obligations.DecodeOfEncodeIsTheCommand : Prop :=
  ∀ (nreg : Nat) (i : Instr), i.wellFormed nreg = true → decode nreg (encode i) = .ok i

/-- Every word has at most one meaning and no bit of it is dropped: a word that decodes to a command is that command's
word (30_encoding.md R65, R68). -/
def Obligations.EncodeOfDecodeIsTheWord : Prop :=
  ∀ (nreg : Nat) (w : CmdWord) (i : Instr), decode nreg w = .ok i → encode i = w ∧ i.wellFormed nreg = true

/-- The decoder and the table of masks and matches accept the same words (30_encoding.md R69, R70): at NREG = 16 a word
decodes exactly when it hits a row, and below it when its used register numbers are also below NREG. -/
def Obligations.LegalWordsAreTheTablesWords : Prop :=
  ∀ w : CmdWord,
    ((∃ i, decode 16 w = .ok i) ↔ ∃ row ∈ opcodeTable, row.hits w = true) ∧
    ∀ (nreg : Nat) (i : Instr),
      decode nreg w = .ok i ↔ decode 16 w = .ok i ∧ ∀ r ∈ i.dest.toList ++ i.sources, r.val < nreg

/-- No two rows match one word (30_encoding.md R69; the spec's inference "because the OP field is in every mask and the
OP values are distinct"). -/
def Obligations.NoWordHitsTwoRows : Prop :=
  ∀ (w : CmdWord) (p q : OpcodeRow), p ∈ opcodeTable → q ∈ opcodeTable → p.hits w = true → q.hits w = true → p = q

/-! ## Running a command -/

/-- A step performs the host's next action (20_memory.md R50; log 11), whatever it is, on the state with that action taken
off the list. And a step runs the decoded command (10_state.md R25, R33): when the host's next action is a CMD write of a word that
decodes to `i`, the step is `exec i` on the state with that action taken off the list, the command index advanced by 1
and the counter of the free values advanced by 1 (log 6, log 11, log 12). The refusal mark is clear: under it the model
gives no command a meaning (log 4). -/
def Obligations.StepRunsTheDecodedCommand : Prop :=
  (∀ (s : State) (a : HostAction) (rest : List HostAction), s.cfg.wf = true → s.pending = a :: rest →
    step s = perform a { s with pending := rest }) ∧
  ∀ (s : State) (w : CmdWord) (rest : List HostAction) (i : Instr),
    s.cfg.wf = true → s.refusalMark = none → s.pending = .writeCmd w :: rest → s.delivery = [] →
    decode s.cfg.nreg w = .ok i →
    step s = exec i { s with pending := rest, ci := s.ci + 1, draws := s.draws + 1 }

/-- The effect of an illegal command is only `raise Status(ILLEGAL_COMMAND)` (60_exceptions.md R163): the step completes,
STATUS is ILLEGAL_COMMAND, and no register, no byte of HIN or HOUT, no length and no fault mark changes. The command
index advances by 1 (R25, log 12); the host's list (log 11), the counter of the free values (log 6) and the refusal mark
(log 4) are the model's own. -/
def Obligations.IllegalWordWritesOnlyStatus : Prop :=
  ∀ (s : State) (w : CmdWord) (rest : List HostAction) (e : DecodeError),
    s.cfg.wf = true → s.refusalMark = none → s.pending = .writeCmd w :: rest → s.delivery = [] →
    decode s.cfg.nreg w = .error e →
    ∃ t, step s = .next t ∧
      OnlyStatus .illegalCommand { s with pending := rest, ci := s.ci + 1, draws := s.draws + 1 } t

/-- A command delivered as 16 bytes, least significant first, runs when its last byte arrives and does what one write of
the word does (30_encoding.md R61; log 4, log 13). -/
def Obligations.ByteDeliveryRunsTheWord : Prop :=
  ∀ (s : State) (w : CmdWord) (rest : List HostAction), s.cfg.wf = true → s.refusalMark = none → s.delivery = [] →
    Host.Core.run core 16 { s with pending := (wordBytes w).map HostAction.writeCmdByte ++ rest } =
      step { s with pending := .writeCmd w :: rest }

/-- With no host action pending the block is idle and holds its state (60_exceptions.md R177). -/
def Obligations.IdleBlockHoldsItsState : Prop :=
  ∀ s : State, s.cfg.wf = true → s.pending = [] → step s = .next s

/-- Every command completes (70_reset_and_hazards.md R189): none of the 16 ends in a fault or a refusal, in any state.
That a command with an unwritten source completes, without a result, is the model's choice (log 1). -/
def Obligations.EveryCommandCompletes : Prop :=
  ∀ (i : Instr) (s : State), ∃ t, exec i s = .next t

/-- Every command, legal or illegal, advances the command index by exactly 1 (10_state.md R25). That no other host action
changes it, a reset among them, and that the last byte of a delivery is the command, are the model's reading (log 12,
log 13). -/
def Obligations.CommandIndexCountsCommands : Prop :=
  ∀ (s t : State) (a : HostAction) (rest : List HostAction), s.pending = a :: rest → step s = .next t →
    t.ci = s.ci + (if (∃ w, a = .writeCmd w) ∨ (∃ b, a = .writeCmdByte b ∧ 15 ≤ s.delivery.length) then 1 else 0)

/-! ## Constructors -/

/-- ZERO (40_construction.md R80): N limbs of 0, STATUS OK, nothing else; in every state, RD written or not. -/
def Obligations.ZeroWritesZeroLimbs : Prop :=
  ∀ (s : State) (rd : Reg), EncodedAs (.zero rd) 0x01#8 .d ∧
    ∃ t v, exec (.zero rd) s = .next t ∧ WritesResult rd v s t ∧ v.length = s.cfg.n ∧
      ∀ i, i < s.cfg.n → limbAt v i = 0

/-- ONE (40_construction.md R81): limb 0 is 1, the remaining limbs 0. -/
def Obligations.OneWritesOne : Prop :=
  ∀ (s : State) (rd : Reg), EncodedAs (.one rd) 0x02#8 .d ∧
    ∃ t v, exec (.one rd) s = .next t ∧ WritesResult rd v s t ∧ v.length = s.cfg.n ∧
      ∀ i, i < s.cfg.n → limbAt v i = if i = 0 then 1 else 0

/-- FROMNAT (40_construction.md R82): limb 0 is the immediate, bits 127:64 of the word, the remaining limbs 0. -/
def Obligations.FromnatWritesTheNativeValue : Prop :=
  ∀ (s : State) (rd : Reg) (imm : BitVec 64), EncodedAs (.fromnat rd imm) 0x03#8 .di ∧
    fieldImm (encode (.fromnat rd imm)) = imm ∧
    ∃ t v, exec (.fromnat rd imm) s = .next t ∧ WritesResult rd v s t ∧ v.length = s.cfg.n ∧
      ∀ i, i < s.cfg.n → limbAt v i = if i = 0 then imm else 0

/-- MAX (40_construction.md R83): every limb is all ones, the number 2^(64·N) - 1. -/
def Obligations.MaxWritesAllOnes : Prop :=
  ∀ (s : State) (rd : Reg), EncodedAs (.max rd) 0x04#8 .d ∧
    ∃ t v, exec (.max rd) s = .next t ∧ WritesResult rd v s t ∧ v.length = s.cfg.n ∧
      (∀ i, i < s.cfg.n → limbAt v i = BitVec.allOnes 64) ∧ val v = 2 ^ (64 * s.cfg.n) - 1

/-- FROMHEX (40_construction.md R89): on a text that parses, the whole of V[RD] and STATUS OK; on a parse error STATUS
alone, V[RD] keeping its content and its written mark. HIN and HIN_LEN never change and no register is read. -/
def Obligations.FromhexWritesTheParseOrReportsItsError : Prop :=
  ∀ (s : State) (rd : Reg), EncodedAs (.fromhex rd) 0x05#8 .d ∧
    ∃ t, exec (.fromhex rd) s = .next t ∧
      (∀ v, parseHex s.cfg.n s.cfg.order s.hinText = .ok v → WritesResult rd v s t) ∧
      (∀ e, parseHex s.cfg.n s.cfg.order s.hinText = .error e → OnlyStatus e.code s t)

/-! ## The parser -/

/-- The characters of a hex text (40_construction.md R84, R85): the 22 ASCII digit codes with their values and no other
byte is a digit; one leading `0x` or `0X` is stripped and nothing else. -/
def Obligations.HexTextIsReadByTheAsciiCodes : Prop :=
  (∀ b : Byte,
    (isHex b = true ↔
      (0x30 ≤ b.toNat ∧ b.toNat ≤ 0x39) ∨ (0x41 ≤ b.toNat ∧ b.toNat ≤ 0x46) ∨ (0x61 ≤ b.toNat ∧ b.toNat ≤ 0x66)) ∧
    (0x30 ≤ b.toNat ∧ b.toNat ≤ 0x39 → hexval b = b.toNat - 0x30) ∧
    (0x41 ≤ b.toNat ∧ b.toNat ≤ 0x46 → hexval b = b.toNat - 0x37) ∧
    (0x61 ≤ b.toNat ∧ b.toNat ≤ 0x66 → hexval b = b.toNat - 0x57)) ∧
  ∀ s : List Byte,
    (∀ t, s = 0x30#8 :: 0x78#8 :: t ∨ s = 0x30#8 :: 0x58#8 :: t → stripHexPrefix s = t) ∧
    ((∀ t, s ≠ 0x30#8 :: 0x78#8 :: t ∧ s ≠ 0x30#8 :: 0x58#8 :: t) → stripHexPrefix s = s)

/-- A parse that succeeds gives N limbs whose number is the hex numeral read whole (40_construction.md R90, the spec's
inference "because the chunks tile t from the right"). -/
def Obligations.ParsedValueIsTheHexNumeral : Prop :=
  ∀ (n : Nat) (order : ParseErrorOrder) (s : List Byte) (v : Value), parseHex n order s = .ok v →
    v.length = n ∧ val v = hexNumeral (stripHexPrefix s)

/-- Which outcome the parser reports, for each PARSE_ERROR_ORDER (40_construction.md R88): the text is too long when it
has more than 16·N characters after the prefix (more than N chunks, leading zeros counted). -/
def Obligations.ParseErrorsFollowTheOrder : Prop :=
  ∀ (n : Nat) (s t : List Byte), t = stripHexPrefix s →
    (parseHex n .lengthFirst s =
      if 16 * n < t.length then .error .tooManyLimbs
      else if ∃ b ∈ t, isHex b = false then .error .invalidHexDigit else .ok (parseLimbs n t)) ∧
    (parseHex n .digitsFirst s =
      if ∃ b ∈ t, isHex b = false then .error .invalidHexDigit
      else if 16 * n < t.length then .error .tooManyLimbs else .ok (parseLimbs n t)) ∧
    (parseHex n .chunkwise s =
      if ∃ b ∈ t.drop (t.length - 16 * n), isHex b = false then .error .invalidHexDigit
      else if 16 * n < t.length then .error .tooManyLimbs else .ok (parseLimbs n t))

/-- The three orders give one result on every text that is not both too long and invalid (40_construction.md R88, the
spec's inference). -/
def Obligations.OrdersAgreeUnlessLongAndInvalid : Prop :=
  ∀ (n : Nat) (p q : ParseErrorOrder) (s : List Byte),
    ¬ (16 * n < (stripHexPrefix s).length ∧ ∃ b ∈ stripHexPrefix s, isHex b = false) → parseHex n p s = parseHex n q s

/-! ## Arithmetic -/

/-- ADD (41_arithmetic.md R100, R101): the sum modulo 2^(64·N), the carry out discarded; STATUS OK, nothing else. The
value law is the spec's inference. -/
def Obligations.AddWritesTheWrappedSum : Prop :=
  ∀ (s : State) (rd rs1 rs2 : Reg), Invariant s → SourcesWritten (.add rd rs1 rs2) s →
    EncodedAs (.add rd rs1 rs2) 0x10#8 .dst ∧
    ∃ t v, exec (.add rd rs1 rs2) s = .next t ∧ WritesResult rd v s t ∧ v.length = s.cfg.n ∧
      val v = (val (s.value rs1) + val (s.value rs2)) % 2 ^ (64 * s.cfg.n)

/-- SUB (41_arithmetic.md R102, R103): RS1 minus RS2 modulo 2^(64·N), the borrow out discarded; the value law is the
spec's inference. -/
def Obligations.SubWritesTheWrappedDifference : Prop :=
  ∀ (s : State) (rd rs1 rs2 : Reg), Invariant s → SourcesWritten (.sub rd rs1 rs2) s →
    EncodedAs (.sub rd rs1 rs2) 0x11#8 .dst ∧
    ∃ t v, exec (.sub rd rs1 rs2) s = .next t ∧ WritesResult rd v s t ∧ v.length = s.cfg.n ∧
      (val v : Int) = ((val (s.value rs1) : Int) - (val (s.value rs2) : Int)) % (2 ^ (64 * s.cfg.n) : Int)

/-- MUL (41_arithmetic.md R104, R106): the low half of the product; the value law is the spec's inference and the
model's definition (log 19). -/
def Obligations.MulWritesTheLowProduct : Prop :=
  ∀ (s : State) (rd rs1 rs2 : Reg), SourcesWritten (.mul rd rs1 rs2) s →
    EncodedAs (.mul rd rs1 rs2) 0x12#8 .dst ∧
    ∃ t v, exec (.mul rd rs1 rs2) s = .next t ∧ WritesResult rd v s t ∧ v.length = s.cfg.n ∧
      val v = (val (s.value rs1) * val (s.value rs2)) % 2 ^ (64 * s.cfg.n)

/-- The adder limb by limb (41_arithmetic.md R100): a carry of 0 into limb 0, each carry 0 or 1 and computed from the
wraparound of the limb below. -/
def Obligations.AdderRipplesTheCarry : Prop :=
  ∀ (n : Nat) (a b : Value), a.length = n → b.length = n →
    ∃ c : Nat → Nat, c 0 = 0 ∧ ∀ i, i < n →
      c i ≤ 1 ∧
      (limbAt (addN n a b) i).toNat = ((limbAt a i).toNat + (limbAt b i).toNat + c i) % 2 ^ 64 ∧
      (c (i + 1) = 1 ↔ 2 ^ 64 ≤ (limbAt a i).toNat + (limbAt b i).toNat + c i)

/-- The subtractor limb by limb (41_arithmetic.md R102): a borrow of 0 into limb 0, each borrow 0 or 1 and set exactly
when the limb below needed one. -/
def Obligations.SubtractorRipplesTheBorrow : Prop :=
  ∀ (n : Nat) (a b : Value), a.length = n → b.length = n →
    ∃ c : Nat → Nat, c 0 = 0 ∧ ∀ i, i < n →
      c i ≤ 1 ∧
      (limbAt (subN n a b) i).toNat = ((limbAt a i).toNat + 2 ^ 64 - (limbAt b i).toNat + (2 ^ 64 - c i)) % 2 ^ 64 ∧
      (c (i + 1) = 1 ↔ (limbAt a i).toNat < (limbAt b i).toNat + c i)

/-- The source's shift-and-add multiplier computes the product's low half, bit for bit the model's MUL (41_arithmetic.md
R104, R105). -/
def Obligations.ShiftAndAddMultiplierIsTheProduct : Prop :=
  ∀ (n : Nat) (a b : Value), a.length = n → b.length = n → mulShiftAdd n a b = mulN n a b

/-- The limb-parallel multiplier is the shift-and-add multiplier: which algorithm runs cannot be observed
(41_arithmetic.md R105, 10_state.md R35). -/
def Obligations.LimbParallelMultiplierIsShiftAndAdd : Prop :=
  ∀ (n : Nat) (a b : Value), a.length = n → b.length = n → mulLimbParallel n a b = mulShiftAdd n a b

/-- The ring laws (41_arithmetic.md R108, the spec's inference from the value laws). -/
def Obligations.ArithmeticObeysTheRingLaws : Prop :=
  ∀ (n : Nat) (a b c : Value), a.length = n → b.length = n → c.length = n →
    addN n a b = addN n b a ∧ addN n (addN n a b) c = addN n a (addN n b c) ∧
    subN n (addN n a b) b = a ∧ addN n a (subN n (zeroN n) a) = zeroN n ∧
    mulN n a b = mulN n b a ∧ mulN n (mulN n a b) c = mulN n a (mulN n b c) ∧
    mulN n a (addN n b c) = addN n (mulN n a b) (mulN n a c)

/-! ## Bitwise logic and shifts -/

/-- AND, OR, XOR and NOT act on each of the N limbs alone, high limbs included (42_bitwise_shift.md R120 to R123);
STATUS OK, nothing else. -/
def Obligations.BitwiseLogicActsOnEveryLimb : Prop :=
  ∀ (s : State) (rd rs1 rs2 : Reg),
    (EncodedAs (.and rd rs1 rs2) 0x20#8 .dst ∧ (SourcesWritten (.and rd rs1 rs2) s →
      ∃ t v, exec (.and rd rs1 rs2) s = .next t ∧ WritesResult rd v s t ∧ v.length = s.cfg.n ∧
        ∀ i, i < s.cfg.n → limbAt v i = limbAt (s.value rs1) i &&& limbAt (s.value rs2) i)) ∧
    (EncodedAs (.or rd rs1 rs2) 0x21#8 .dst ∧ (SourcesWritten (.or rd rs1 rs2) s →
      ∃ t v, exec (.or rd rs1 rs2) s = .next t ∧ WritesResult rd v s t ∧ v.length = s.cfg.n ∧
        ∀ i, i < s.cfg.n → limbAt v i = limbAt (s.value rs1) i ||| limbAt (s.value rs2) i)) ∧
    (EncodedAs (.xor rd rs1 rs2) 0x22#8 .dst ∧ (SourcesWritten (.xor rd rs1 rs2) s →
      ∃ t v, exec (.xor rd rs1 rs2) s = .next t ∧ WritesResult rd v s t ∧ v.length = s.cfg.n ∧
        ∀ i, i < s.cfg.n → limbAt v i = limbAt (s.value rs1) i ^^^ limbAt (s.value rs2) i)) ∧
    (EncodedAs (.not rd rs1) 0x23#8 .ds ∧ (SourcesWritten (.not rd rs1) s →
      ∃ t v, exec (.not rd rs1) s = .next t ∧ WritesResult rd v s t ∧ v.length = s.cfg.n ∧
        ∀ i, i < s.cfg.n → limbAt v i = ~~~(limbAt (s.value rs1) i)))

/-- SHL (42_bitwise_shift.md R124, R125, R128): every shift amount is legal, and the result is the number times 2^s
modulo 2^(64·N). The value law is the spec's inference. -/
def Obligations.ShlShiftsLeftByAnyAmount : Prop :=
  ∀ (s : State) (rd rs1 : Reg) (imm : BitVec 64), Invariant s → SourcesWritten (.shl rd rs1 imm) s →
    EncodedAs (.shl rd rs1 imm) 0x24#8 .dsi ∧
    fieldImm (encode (.shl rd rs1 imm)) = imm ∧
    ∃ t v, exec (.shl rd rs1 imm) s = .next t ∧ WritesResult rd v s t ∧ v.length = s.cfg.n ∧
      val v = (val (s.value rs1) * 2 ^ imm.toNat) % 2 ^ (64 * s.cfg.n)

/-- SHR (42_bitwise_shift.md R126, R127, R128): every shift amount is legal, zeros fill from the top, and the result is
the number divided by 2^s. The value law is the spec's inference. -/
def Obligations.ShrShiftsRightByAnyAmount : Prop :=
  ∀ (s : State) (rd rs1 : Reg) (imm : BitVec 64), Invariant s → SourcesWritten (.shr rd rs1 imm) s →
    EncodedAs (.shr rd rs1 imm) 0x25#8 .dsi ∧
    fieldImm (encode (.shr rd rs1 imm)) = imm ∧
    ∃ t v, exec (.shr rd rs1 imm) s = .next t ∧ WritesResult rd v s t ∧ v.length = s.cfg.n ∧
      val v = val (s.value rs1) / 2 ^ imm.toNat

/-- The shift identities (42_bitwise_shift.md R129): a shift by 0 is the value, a left shift by the width is zero, one
shifted left by 64 has limb 1 = 1 when N is at least 2 and is zero when N is 1, and a right shift undoes a left shift
exactly when no bit is lost. -/
def Obligations.ShiftIdentities : Prop :=
  ∀ (n : Nat) (a : Value), 1 ≤ n → a.length = n →
    shlN n a 0 = a ∧ shlN n a (64 * n) = zeroN n ∧
    (2 ≤ n → ∀ i, i < n → limbAt (shlN n (oneN n) 64) i = if i = 1 then 1 else 0) ∧
    (n = 1 → shlN n (oneN n) 64 = zeroN n) ∧
    ∀ k, shrN n (shlN n a k) k = a ↔ val a * 2 ^ k < 2 ^ (64 * n)

/-- The bitwise laws (42_bitwise_shift.md R130): AND, OR and XOR are commutative and associative, and both forms of De
Morgan's law hold; and the complement as a number is 2^(64·N) - 1 minus it (R123, the spec's inference). -/
def Obligations.BitwiseLawsHold : Prop :=
  ∀ (n : Nat) (a b c : Value),
    andN n a b = andN n b a ∧ orN n a b = orN n b a ∧ xorN n a b = xorN n b a ∧
    andN n (andN n a b) c = andN n a (andN n b c) ∧ orN n (orN n a b) c = orN n a (orN n b c) ∧
    xorN n (xorN n a b) c = xorN n a (xorN n b c) ∧
    andN n (notN n a) (notN n b) = notN n (orN n a b) ∧ orN n (notN n a) (notN n b) = notN n (andN n a b) ∧
    (a.length = n → val (notN n a) = 2 ^ (64 * n) - 1 - val a)

/-! ## Serialization -/

/-- The canonical hex text as the digits of the number: byte j is the digit of weight 16^(16·N-1-j)
(43_serialization.md R141; the form by the number is the spec's inference); and the digits are the lower-case bytes
`0` to `9` = 0x30 to 0x39 and `a` to `f` = 0x61 to 0x66 (R140). -/
def Obligations.CanonicalHexIsTheNumbersDigits : Prop :=
  (∀ d, d ≤ 9 → (hexDigit d).toNat = 0x30 + d) ∧ (∀ d, 10 ≤ d → d < 16 → (hexDigit d).toNat = 0x61 + (d - 10)) ∧
  ∀ (n : Nat) (a : Value), a.length = n →
    (hexN n a).length = 16 * n ∧
    ∀ j, j < 16 * n → (hexN n a)[j]? = some (hexDigit (val a / 16 ^ (16 * n - 1 - j) % 16))

/-- TOHEX (43_serialization.md R142), its source written: the 16·N bytes of the canonical hex with no prefix,
HOUT_LEN = 16·N, STATUS OK; `HOUT[16·N]` and `HOUT[16·N+1]`, HIN and every register keep their content. -/
def Obligations.TohexEmitsTheCanonicalHex : Prop :=
  ∀ (s : State) (rs1 : Reg), SourcesWritten (.tohex rs1) s → EncodedAs (.tohex rs1) 0x30#8 .s ∧
    ∃ t, exec (.tohex rs1) s = .next t ∧ EmitsText (hexN s.cfg.n (s.value rs1)) s t ∧
      t.houtLen = BitVec.ofNat 64 (16 * s.cfg.n)

/-- DISPLAY (43_serialization.md R143, R144), its source written: `0x` and the canonical hex, HOUT_LEN = 16·N + 2, STATUS
OK; HIN and every register keep their content. -/
def Obligations.DisplayEmitsThePrefixedHex : Prop :=
  ∀ (s : State) (rs1 : Reg), SourcesWritten (.display rs1) s → EncodedAs (.display rs1) 0x31#8 .s ∧
    ∃ t, exec (.display rs1) s = .next t ∧
      EmitsText (0x30#8 :: 0x78#8 :: hexN s.cfg.n (s.value rs1)) s t ∧
      t.houtLen = BitVec.ofNat 64 (16 * s.cfg.n + 2)

/-- The round trip on texts (43_serialization.md R145, the spec's inference): the canonical hex and the display text of
every value parse back to exactly that value, under every PARSE_ERROR_ORDER. -/
def Obligations.CanonicalTextsParseBack : Prop :=
  ∀ (n : Nat) (order : ParseErrorOrder) (a : Value), 1 ≤ n → a.length = n →
    parseHex n order (hexN n a) = .ok a ∧ parseHex n order (displayN n a) = .ok a

/-- The round trip on the machine (43_serialization.md R145): after TOHEX or DISPLAY of a written register, a state of the
same instance whose HIN holds the bytes of HOUT runs FROMHEX to exactly that value with STATUS OK. -/
def Obligations.TextRoundTripOnTheMachine : Prop :=
  ∀ (s t u : State) (rs1 rd : Reg), Invariant s → (s.slot rs1).written = true →
    (exec (.tohex rs1) s = .next t ∨ exec (.display rs1) s = .next t) →
    u.cfg = s.cfg → u.hinText = t.houtText →
    ∃ x, exec (.fromhex rd) u = .next x ∧ WritesResult rd (s.value rs1) u x

/-! ## What a command may change, over all commands -/

/-- No command changes a value register other than its RD (10_state.md R22, R24). -/
def Obligations.OnlyTheDestinationChanges : Prop :=
  ∀ (i : Instr) (s t : State) (r : Reg), exec i s = .next t → i.dest ≠ some r → t.slot r = s.slot r

/-- No command changes HIN or HIN_LEN (10_state.md R28, R29). -/
def Obligations.NoCommandWritesTheInput : Prop :=
  ∀ (i : Instr) (s t : State), exec i s = .next t → KeepsInput s t

/-- No command but TOHEX and DISPLAY changes HOUT or HOUT_LEN (10_state.md R30, R31; 70_reset_and_hazards.md R186). -/
def Obligations.OnlyTextCommandsWriteTheOutput : Prop :=
  ∀ (i : Instr) (s t : State), exec i s = .next t → (∀ r, i ≠ .tohex r ∧ i ≠ .display r) → KeepsOutput s t

/-- STATUS after a legal command whose sources are written (60_exceptions.md R161, R162): a FROMHEX whose text does not
parse gives its parse error's code, every other command gives OK, whatever STATUS was; and the codes as the host reads
them, bits 7:2 zero (10_state.md R27): OK 0, INVALID_HEX_DIGIT 1, TOO_MANY_LIMBS 2, ILLEGAL_COMMAND 3. (With an unwritten
source the command "reports no code", R166; log 1.) -/
def Obligations.StatusReportsTheCommand : Prop :=
  (∀ (i : Instr) (s t : State), SourcesWritten i s → exec i s = .next t →
    (∀ rd, i = .fromhex rd → parseHex s.cfg.n s.cfg.order s.hinText = .error .invalidHexDigit →
      t.status = .invalidHexDigit) ∧
    (∀ rd, i = .fromhex rd → parseHex s.cfg.n s.cfg.order s.hinText = .error .tooManyLimbs →
      t.status = .tooManyLimbs) ∧
    ((∀ rd e, i = .fromhex rd → parseHex s.cfg.n s.cfg.order s.hinText ≠ .error e) → t.status = .ok)) ∧
  ∀ s : State,
    (s.status = .ok → s.statusByte = 0x00#8) ∧ (s.status = .invalidHexDigit → s.statusByte = 0x01#8) ∧
    (s.status = .tooManyLimbs → s.statusByte = 0x02#8) ∧ (s.status = .illegalCommand → s.statusByte = 0x03#8)

/-- A result depends on the operands only (41_arithmetic.md R107, 10_state.md R20; for FROMHEX on the text in HIN,
20_memory.md R46 and 40_construction.md R89; the texts of 43_serialization.md R142 and R144): two states of one instance
in which the command's sources are written and hold the same values, and for FROMHEX the same text in HIN, end with the
same STATUS and, where the command writes its RD in one of them, the same content of RD; TOHEX and DISPLAY leave the same
HOUT_LEN and the same bytes below it; whatever else the states hold. -/
def Obligations.ResultDependsOnTheOperandsOnly : Prop :=
  ∀ (i : Instr) (s u s' u' : State), s.cfg = u.cfg → SourcesWritten i s → SourcesWritten i u →
    (∀ r ∈ i.sources, s.value r = u.value r) →
    (∀ rd, i = .fromhex rd → s.hinText = u.hinText) → exec i s = .next s' → exec i u = .next u' →
    s'.status = u'.status ∧ (∀ rd, i.dest = some rd → s'.status = .ok → s'.slot rd = u'.slot rd) ∧
      (i.dest = none → s'.houtLen = u'.houtLen ∧ ∀ a, a < s'.houtLen.toNat → s'.hout.read a = u'.hout.read a)

/-- Sources are read in full before the result is written (70_reset_and_hazards.md R184): with RD equal to both sources,
ADD doubles, SUB and XOR clear, MUL squares and AND and OR keep the register; the register is written. -/
def Obligations.InPlaceCommandsUseTheOldValue : Prop :=
  ∀ (s : State) (r : Reg), Invariant s → (s.slot r).written = true →
    (∃ t, exec (.add r r r) s = .next t ∧ val (t.value r) = (2 * val (s.value r)) % 2 ^ (64 * s.cfg.n)) ∧
    (∃ t, exec (.sub r r r) s = .next t ∧ t.value r = zeroN s.cfg.n) ∧
    (∃ t, exec (.xor r r r) s = .next t ∧ t.value r = zeroN s.cfg.n) ∧
    (∃ t, exec (.mul r r r) s = .next t ∧ val (t.value r) = (val (s.value r) ^ 2) % 2 ^ (64 * s.cfg.n)) ∧
    (∃ t, exec (.and r r r) s = .next t ∧ t.value r = s.value r) ∧
    (∃ t, exec (.or r r r) s = .next t ∧ t.value r = s.value r)

/-- A command with an unwritten source (10_state.md R23, 43_serialization.md R142, 60_exceptions.md R166, R173): the fault
mark notes the first unwritten of RS1, RS2, and the spec gives the command no result and no code. That the run goes on,
that RD and STATUS then hold free values, of which nothing is said here, and that a mark once set stays until reset, are
the model's choice (log 1, log 3); HOUT, HOUT_LEN and everything else stay. A command whose sources are written leaves
the mark alone. -/
def Obligations.UnwrittenSourceIsMarked : Prop :=
  ∀ (i : Instr) (s : State),
    (∀ r, s.firstUnwritten i.sources = some r → ∃ t, exec i s = .next t ∧ NoResult r i.dest s t) ∧
    (∀ t, SourcesWritten i s → exec i s = .next t → t.faultMark = s.faultMark)

/-- The pseudo-instructions (30_encoding.md R73): `mov` copies, `li` loads the immediate, `clr` clears, `sqr` squares,
each by its single command; the source of `mov` and `sqr` is written. -/
def Obligations.PseudoInstructionsAreExact : Prop :=
  ∀ (s : State) (vd vs : Reg) (imm : BitVec 64), Invariant s →
    ((s.slot vs).written = true →
      ∃ t, exec (Pseudo.mov vd vs).expand s = .next t ∧ WritesResult vd (s.value vs) s t) ∧
    (∃ t, exec (Pseudo.li vd imm).expand s = .next t ∧ WritesResult vd (fromNatN s.cfg.n imm) s t) ∧
    (∃ t, exec (Pseudo.clr vd).expand s = .next t ∧ WritesResult vd (zeroN s.cfg.n) s t) ∧
    ((s.slot vs).written = true → ∃ t, exec (Pseudo.sqr vd vs).expand s = .next t ∧
      WritesResult vd (limbsOf s.cfg.n (val (s.value vs) * val (s.value vs))) s t)

/-! ## The host's ports -/

/-- No read changes the block, whatever action follows it, and repeating it returns the same bytes (20_memory.md R47). Only
a VVIEW read touches the fault mark: where all of its bytes belong to written registers it leaves the mark alone, and
otherwise it is the model fault UnwrittenRead (10_state.md R23, 60_exceptions.md R173). That the mark names the register
of the lowest such byte (log 21) and keeps an earlier entry (log 3) are the model's choice. -/
def Obligations.ReadsHaveNoSideEffect : Prop :=
  (∀ (s t : State) (a : HostAction) (rest : List HostAction), IsRead a → s.pending = a :: rest → step s = .next t →
    SameBlock s t ∧ ((∀ k w, a ≠ .readBytes .vview k w) → t.faultMark = s.faultMark) ∧
    ∀ (rest' : List HostAction) (u : State), rest = a :: rest' → step t = .next u →
      u.returned = t.returned ∧ SameBlock s u) ∧
  ∀ (s t : State) (k w : Nat) (rest : List HostAction), s.pending = .readBytes .vview k w :: rest → step s = .next t →
    ((∀ j, j < w → (s.slot (viewReg s.cfg (k + j))).written = true) → t.faultMark = s.faultMark) ∧
    ∀ j, j < w → (s.slot (viewReg s.cfg (k + j))).written = false →
      (∀ i, i < j → (s.slot (viewReg s.cfg (k + i))).written = true) →
      t.faultMark = s.faultMark.or (some (.unwrittenRead (viewReg s.cfg (k + j))))

/-- VVIEW is the limb-major little-endian byte view of the registers (20_memory.md R43), byte r·8·N + 8·i + j belonging to
register r; of an unwritten register it shows
the free value (the model's choice, log 2, log 21). -/
def Obligations.ViewIsLimbMajorLittleEndian : Prop :=
  ∀ (s : State) (r : Reg) (i j : Nat), i < s.cfg.n → j < 8 →
    s.vviewByte (r.val * (8 * s.cfg.n) + 8 * i + j) = (limbAt (s.value r) i).extractLsb' (8 * j) 8 ∧
    viewReg s.cfg (r.val * (8 * s.cfg.n) + 8 * i + j) = r

/-- What a host read returns (10_state.md R27, R28, R30, R33; 20_memory.md R40, R44, R45; 60_exceptions.md R174). A read of
w bytes inside HIN (HIN_CAP bytes), HOUT (16·N + 2 bytes) or VVIEW (NREG·8·N bytes) completes and returns the space's
bytes composed little-endian, and changes nothing else, but that a VVIEW read may note the fault mark
(ReadsHaveNoSideEffect says when); STATUS is read as 1 byte, HIN_LEN and HOUT_LEN as 8 (log 27). That a view read of an
unwritten register completes is the model's choice (log 21); the state keeps what was returned (log 22). -/
def Obligations.HostReadsComposeLittleEndian : Prop :=
  ∀ (s : State) (k w : Nat), s.refusalMark = none → s.delivery = [] →
    (k + w ≤ s.cfg.hinCap →
      ∃ t, perform (.readBytes .hin k w) s = .next t ∧ ReturnsBytes w (fun j => s.hinByteAt (k + j)) t ∧
        t = { s with returned := t.returned }) ∧
    (k + w ≤ 16 * s.cfg.n + 2 →
      ∃ t, perform (.readBytes .hout k w) s = .next t ∧ ReturnsBytes w (fun j => s.houtByteAt (k + j)) t ∧
        t = { s with returned := t.returned }) ∧
    (k + w ≤ s.cfg.nreg * 8 * s.cfg.n →
      ∃ t, perform (.readBytes .vview k w) s = .next t ∧ ReturnsBytes w (fun j => s.vviewByte (k + j)) t ∧
        t = { s with faultMark := t.faultMark, returned := t.returned }) ∧
    perform .readStatus s = .next { s with returned := { width := 1, value := s.statusByte.toNat } } ∧
    perform .readHinLen s = .next { s with returned := { width := 8, value := s.hinLen.toNat } } ∧
    perform .readHoutLen s = .next { s with returned := { width := 8, value := s.houtLen.toNat } }

/-- The host's writes store and do nothing else (20_memory.md R47): the bytes go to HIN from index k on, in the order given
(log 28, the model's reading), the other bytes stay, and HIN_LEN takes any value up to HIN_CAP (10_state.md R28, R29). -/
def Obligations.HostWritesStoreOnly : Prop :=
  ∀ (s : State) (k : Nat) (bs : List Byte) (v : BitVec 64), s.refusalMark = none → s.delivery = [] →
    (k + bs.length ≤ s.cfg.hinCap →
      ∃ t, perform (.writeHin k bs) s = .next t ∧
        (∀ a, t.hin.read a = if k ≤ a ∧ a < k + bs.length then bs[a - k]? else s.hin.read a) ∧
        t = { s with hin := t.hin }) ∧
    (v.toNat ≤ s.cfg.hinCap → perform (.writeHinLen v) s = .next { s with hinLen := v })

/-- The directive `.hin` (30_encoding.md R74): its host writes leave exactly its text in `HIN[0 .. HIN_LEN-1]`; the bytes
above it, the registers, STATUS and the output stay. -/
def Obligations.HinDirectiveLoadsTheText : Prop :=
  ∀ (s : State) (text : List Byte) (rest : List HostAction), s.cfg.wf = true →
    s.refusalMark = none → s.delivery = [] → text.length ≤ s.cfg.hinCap →
    s.pending = (SourceLine.hin text).actions ++ rest →
    ∃ t, Host.Core.run core 2 s = .next t ∧ t.hinText = text ∧ t.pending = rest ∧
      (∀ a, text.length ≤ a → t.hin.read a = s.hin.read a) ∧ (∀ r : Reg, t.slot r = s.slot r) ∧
      t.status = s.status ∧ KeepsOutput s t ∧ t.faultMark = s.faultMark ∧ t.ci = s.ci

/-- A host action that breaks a duty has no move (60_exceptions.md R173, R174; 10_state.md R28; 20_memory.md R45). That the
model shows this as a fault that names the duty is its choice (log 14), as are a read of CMD as one of them (log 14), an
access during a whole-word command as an action of its own (log 15), and that no other access, read or write, has a move
while the bytes of a command are being delivered (log 13). -/
def Obligations.BrokenDutiesHaveNoMove : Prop :=
  ∀ s : State, s.refusalMark = none →
    (s.delivery = [] →
      (∀ v : BitVec 64, s.cfg.hinCap < v.toNat → perform (.writeHinLen v) s = .fault (.hinLenAboveCap v)) ∧
      (∀ (k : Nat) (bs : List Byte), s.cfg.hinCap < k + bs.length →
        perform (.writeHin k bs) s = .fault (.pastEndOfSpace .hin k bs.length)) ∧
      (∀ k w : Nat, s.cfg.hinCap < k + w → perform (.readBytes .hin k w) s = .fault (.pastEndOfSpace .hin k w)) ∧
      (∀ k w : Nat, 16 * s.cfg.n + 2 < k + w →
        perform (.readBytes .hout k w) s = .fault (.pastEndOfSpace .hout k w)) ∧
      (∀ k w : Nat, s.cfg.nreg * 8 * s.cfg.n < k + w →
        perform (.readBytes .vview k w) s = .fault (.pastEndOfSpace .vview k w)) ∧
      (∀ p, perform (.writeReadOnly p) s = .fault (.writeToReadOnlyPort p)) ∧
      perform .readCmd s = .fault .readOfCmd) ∧
    (s.delivery ≠ [] → ∀ a, IsAccess a → perform a s = .fault .accessDuringCommand) ∧
    (∀ w, perform (.duringCommand w .access) s = .fault .accessDuringCommand)

/-- A reset during a command is refused, as is a suppressed rendering (70_reset_and_hazards.md R187, 43_serialization.md
R146): the refusal mark records it (60_exceptions.md R173), and while the mark is set the model gives no action but a
reset a meaning. That the mark keeps the first refusal, that the actions under it end in `Outcome.refused` (log 4), and
that a reset while a command's bytes are being delivered counts as one during a command (log 13), are the model's
reading. -/
def Obligations.ResetDuringCommandIsRefused : Prop :=
  ∀ s : State,
    (s.refusalMark = none →
      (∀ w, ∃ t, perform (.duringCommand w .reset) s = .next t ∧ t.refusalMark = some .resetDuringCommand) ∧
      (s.delivery ≠ [] → ∃ t, perform .reset s = .next t ∧ t.refusalMark = some .resetDuringCommand) ∧
      (∀ r, ∃ t, perform (.suppressedHex r) s = .next t ∧ t.refusalMark = some .suppressedRendering)) ∧
    (∀ m a, s.refusalMark = some m → a ≠ .reset → perform a s = .refused (.underRefusalMark m))

/-! ## Reset and invariants -/

/-- Reset between commands (70_reset_and_hazards.md R180): every register unwritten, STATUS OK, both lengths 0, no byte
of HIN or HOUT kept, the fault mark and the refusal mark cleared, whichever of them was set, "because a reset starts a
new launch"; the parameters and the host's actions stay (that they stay is the model's choice, log 2, log 12). -/
def Obligations.ResetClearsTheBlock : Prop :=
  ∀ s : State, s.delivery = [] → ∃ t, perform .reset s = .next t ∧
    (∀ r, (t.slot r).written = false) ∧ t.status = .ok ∧ t.hinLen = 0 ∧ t.houtLen = 0 ∧
    (∀ a, t.hin.read a = none ∧ t.hout.read a = none) ∧ t.faultMark = none ∧ t.refusalMark = none ∧
    t.cfg = s.cfg ∧ t.pending = s.pending ∧ t.ci = s.ci

/-- The state after reset (10_state.md R36, R25): every register unwritten, STATUS reads 0, both lengths 0, the command
index 0, both marks clear, at the default parameters of 00_scope.md R5, R7 and R8 (that HOST_MAP is then `none` is the
model's choice, log 10). -/
def Obligations.ResetStateHoldsTheSpecsValues : Prop :=
  (∀ r, (State.reset.slot r).written = false) ∧ State.reset.statusByte = 0 ∧ State.reset.hinLen = 0 ∧
    State.reset.houtLen = 0 ∧ State.reset.ci = 0 ∧ State.reset.faultMark = none ∧ State.reset.refusalMark = none ∧
    State.reset.cfg = { n := 64, nreg := 16, hinCap := 16 * 64 + 2, order := .lengthFirst, hostMap := none }

/-- Every instance right after reset meets the invariant. -/
def Obligations.ResetMeetsTheInvariant : Prop :=
  (∀ c : Config, c.wf = true → Invariant (State.initial c)) ∧ Invariant State.reset

/-- Every step keeps the invariant: N limbs in every register, registers beyond NREG never written, HIN_LEN within
HIN_CAP, canonical byte spaces within their bounds, HOUT_LEN in its three values with a canonical text below it, and at
most 15 bytes in delivery (10_state.md R21, R28, R30, R31, R36; 43_serialization.md R146). -/
def Obligations.StepKeepsTheInvariant : Prop :=
  ∀ s t : State, Invariant s → step s = .next t → Invariant t

/-- No step changes the parameters of the instance (00_scope.md R5: the width is "fixed at construction/compile time"). -/
def Obligations.StepKeepsTheParameters : Prop :=
  ∀ s t : State, step s = .next t → t.cfg = s.cfg

/-- Only a command that names a register as RD, or a reset, changes that register (10_state.md R22): a host write, a host
read, an illegal word and a delivered byte that is not a command's sixteenth never do (30_encoding.md R61; log 13). -/
def Obligations.RegistersChangeOnlyByCommands : Prop :=
  ∀ (s t : State) (a : HostAction) (rest : List HostAction) (r : Reg), s.pending = a :: rest → step s = .next t →
    t.slot r ≠ s.slot r →
    a = .reset ∨ ∃ w i, (a = .writeCmd w ∨ ∃ b, a = .writeCmdByte b ∧ 15 ≤ s.delivery.length ∧
      w = bytesWord (s.delivery ++ [b])) ∧ decode s.cfg.nreg w = .ok i ∧ i.dest = some r

/-- What HOUT_LEN can be (10_state.md R36) and what a host reads below it (43_serialization.md R140, R143, R147): 0, 16·N or
16·N + 2, and every byte of `HOUT[0 .. HOUT_LEN-1]` is one of the codes 0x30 to 0x39 (`0` to `9`) and 0x61 to 0x66 (`a` to
`f`), but for the `x` (0x78) of the prefix at index 1; the prefix's first byte is 0x30. -/
def Obligations.OutputIsLowerCaseHex : Prop :=
  ∀ s : State, Invariant s →
    (s.houtLen.toNat = 0 ∨ s.houtLen.toNat = 16 * s.cfg.n ∨ s.houtLen.toNat = 16 * s.cfg.n + 2) ∧
    (s.houtLen.toNat = 16 * s.cfg.n + 2 → s.houtByteAt 0 = 0x30#8 ∧ s.houtByteAt 1 = 0x78#8) ∧
    ∀ j, j < s.houtLen.toNat → ¬ (s.houtLen.toNat = 16 * s.cfg.n + 2 ∧ j = 1) →
      (0x30 ≤ (s.houtByteAt j).toNat ∧ (s.houtByteAt j).toNat ≤ 0x39) ∨
        (0x61 ≤ (s.houtByteAt j).toNat ∧ (s.houtByteAt j).toNat ≤ 0x66)
end

