-- ==== Sys2Proof/Laws/Encoding.lean ====
section
/-! SUPPORT. The fields of a packed word: each field reads back what was packed (30_encoding.md R60, R72). -/

namespace Sys2Proof.Laws

variable (op : BitVec 8) (rd rs1 rs2 : Reg) (imm : BitVec 64)

@[simp] theorem fieldOp_packWord : fieldOp (packWord op rd rs1 rs2 imm) = op := by
  ext i hi
  simp only [fieldOp, packWord, BitVec.getElem_extractLsb', BitVec.getLsbD_append]
  simp [hi]

@[simp] theorem fieldRd_packWord : fieldRd (packWord op rd rs1 rs2 imm) = BitVec.ofFin rd := by
  ext i hi
  simp only [fieldRd, packWord, BitVec.getElem_extractLsb', BitVec.getLsbD_append]
  have h1 : ¬ 8 + i < 8 := by omega
  have h2 : 8 + i - 8 < 4 := by omega
  simp [h1, hi]

@[simp] theorem fieldRs1_packWord : fieldRs1 (packWord op rd rs1 rs2 imm) = BitVec.ofFin rs1 := by
  ext i hi
  simp only [fieldRs1, packWord, BitVec.getElem_extractLsb', BitVec.getLsbD_append]
  have h1 : ¬ 12 + i < 8 := by omega
  have h2 : ¬ 12 + i - 8 < 4 := by omega
  have h3 : 12 + i - 8 - 4 < 4 := by omega
  have e : 12 + i - 8 - 4 = i := by omega
  simp [h1, h2, e, hi]

@[simp] theorem fieldRs2_packWord : fieldRs2 (packWord op rd rs1 rs2 imm) = BitVec.ofFin rs2 := by
  ext i hi
  simp only [fieldRs2, packWord, BitVec.getElem_extractLsb', BitVec.getLsbD_append]
  have h1 : ¬ 16 + i < 8 := by omega
  have h2 : ¬ 16 + i - 8 < 4 := by omega
  have h3 : ¬ 16 + i - 8 - 4 < 4 := by omega
  have e : 16 + i - 8 - 4 - 4 = i := by omega
  simp [h1, h2, h3, e, hi]

@[simp] theorem fieldRsv_packWord : fieldRsv (packWord op rd rs1 rs2 imm) = 0 := by
  ext i hi
  simp only [fieldRsv, packWord, BitVec.getElem_extractLsb', BitVec.getLsbD_append]
  have h1 : ¬ 20 + i < 8 := by omega
  have h2 : ¬ 20 + i - 8 < 4 := by omega
  have h3 : ¬ 20 + i - 8 - 4 < 4 := by omega
  have h4 : ¬ 20 + i - 8 - 4 - 4 < 4 := by omega
  have e : 20 + i - 8 - 4 - 4 - 4 = i := by omega
  simp [h1, h2, h3, h4, e, hi]

@[simp] theorem fieldImm_packWord : fieldImm (packWord op rd rs1 rs2 imm) = imm := by
  ext i hi
  simp only [fieldImm, packWord, BitVec.getElem_extractLsb', BitVec.getLsbD_append]
  have h1 : ¬ 64 + i < 8 := by omega
  have h2 : ¬ 64 + i - 8 < 4 := by omega
  have h3 : ¬ 64 + i - 8 - 4 < 4 := by omega
  have h4 : ¬ 64 + i - 8 - 4 - 4 < 4 := by omega
  have h5 : ¬ 64 + i - 8 - 4 - 4 - 4 < 44 := by omega
  have e : 64 + i - 8 - 4 - 4 - 4 - 44 = i := by omega
  simp [h1, h2, h3, h4, h5, e, BitVec.getLsbD_eq_getElem hi]

/-- A register number survives its 4-bit field (30_encoding.md R62). -/
@[simp] theorem regOf_ofFin (r : Reg) : regOf (BitVec.ofFin r) = r := rfl

@[simp] theorem ofFin_regOf (f : BitVec 4) : BitVec.ofFin (regOf f) = f := rfl

/-- The fields are the whole word: a word is the packing of its fields when RSV is zero (30_encoding.md R60). -/
theorem packWord_fields (w : CmdWord) (h : fieldRsv w = 0) :
    packWord (fieldOp w) (regOf (fieldRd w)) (regOf (fieldRs1 w)) (regOf (fieldRs2 w)) (fieldImm w) = w := by
  have hr : ∀ i, i < 44 → w.getLsbD (20 + i) = false := by
    intro i hi
    have := congrArg (fun v : BitVec 44 => v.getLsbD i) h
    simpa [fieldRsv, BitVec.getLsbD_extractLsb', hi] using this
  apply BitVec.eq_of_getLsbD_eq
  intro i hi
  simp only [packWord, ofFin_regOf, BitVec.getLsbD_append, fieldOp, fieldRd, fieldRs1, fieldRs2, fieldImm]
  by_cases h1 : i < 8
  · simp [h1]
  by_cases h2 : i < 12
  · have e : 8 + (i - 8) = i := by omega
    have g : i - 8 < 4 := by omega
    simp [h1, g, e]
  by_cases h3 : i < 16
  · have e : 12 + (i - 8 - 4) = i := by omega
    have g : ¬ i - 8 < 4 := by omega
    have g2 : i - 8 - 4 < 4 := by omega
    simp [h1, g, g2, e]
  by_cases h4 : i < 20
  · have e : 16 + (i - 8 - 4 - 4) = i := by omega
    have g : ¬ i - 8 < 4 := by omega
    have g2 : ¬ i - 8 - 4 < 4 := by omega
    have g3 : i - 8 - 4 - 4 < 4 := by omega
    simp [h1, g, g2, g3, e]
  by_cases h5 : i < 64
  · have e : 20 + (i - 20) = i := by omega
    have g : ¬ i - 8 < 4 := by omega
    have g2 : ¬ i - 8 - 4 < 4 := by omega
    have g3 : ¬ i - 8 - 4 - 4 < 4 := by omega
    have g4 : i - 8 - 4 - 4 - 4 < 44 := by omega
    have := hr (i - 20) (by omega)
    rw [e] at this
    simp [h1, g, g2, g3, g4, this]
  · have e : 64 + (i - 8 - 4 - 4 - 4 - 44) = i := by omega
    have g : ¬ i - 8 < 4 := by omega
    have g2 : ¬ i - 8 - 4 < 4 := by omega
    have g3 : ¬ i - 8 - 4 - 4 < 4 := by omega
    have g4 : ¬ i - 8 - 4 - 4 - 4 < 44 := by omega
    have g5 : i - 8 - 4 - 4 - 4 - 44 < 64 := by omega
    simp [h1, g, g2, g3, g4, g5, e]

end Sys2Proof.Laws
end

