-- ==== Sys2Proof/Laws/Limbs.lean ====
section
/-! SUPPORT. Values as numbers: `val` and `limbsOf` are mutually inverse (00_scope.md R11), limbs and bits of a value,
and the lengths of the engines' results. -/

namespace Sys2Proof.Laws

open Sys2Proof.Machine

@[simp] theorem val_nil : val [] = 0 := rfl

@[simp] theorem val_cons (x : Limb) (xs : Value) : val (x :: xs) = x.toNat + 2 ^ 64 * val xs := rfl

theorem val_lt (v : Value) : val v < 2 ^ (64 * v.length) := by
  induction v with
  | nil => simp
  | cons x xs ih =>
    have hx := x.isLt
    have : 2 ^ (64 * (x :: xs).length) = 2 ^ 64 * 2 ^ (64 * xs.length) := by
      rw [← Nat.pow_add]; congr 1; simp; omega
    rw [this, val_cons]
    have h2 : val xs + 1 ≤ 2 ^ (64 * xs.length) := ih
    have := Nat.mul_le_mul_left (2 ^ 64) h2
    omega

@[simp] theorem length_limbsOf (n v : Nat) : (limbsOf n v).length = n := by simp [limbsOf]

theorem limbsOf_succ (n v : Nat) : limbsOf (n + 1) v = BitVec.ofNat 64 v :: limbsOf n (v / 2 ^ 64) := by
  unfold limbsOf
  rw [List.range_succ_eq_map, List.map_cons, List.map_map]
  congr 1
  · simp
  · apply List.map_congr_left
    intro i _
    simp only [Function.comp, Nat.succ_eq_add_one]
    congr 1
    rw [Nat.div_div_eq_div_mul, ← Nat.pow_add]
    congr 2
    omega

/-- The number of the limbs of `v` is `v` modulo 2^(64·n). -/
theorem val_limbsOf (n v : Nat) : val (limbsOf n v) = v % 2 ^ (64 * n) := by
  induction n generalizing v with
  | zero => simp [limbsOf, Nat.mod_one]
  | succ n ih =>
    rw [limbsOf_succ, val_cons, ih, BitVec.toNat_ofNat]
    have : 2 ^ (64 * (n + 1)) = 2 ^ 64 * 2 ^ (64 * n) := by rw [← Nat.pow_add]; congr 1; omega
    rw [this, Nat.mod_mul]

/-- The limbs of a value's number are the value. -/
theorem limbsOf_val (v : Value) : limbsOf v.length (val v) = v := by
  induction v with
  | nil => rfl
  | cons x xs ih =>
    have hx := x.isLt
    rw [List.length_cons, limbsOf_succ, val_cons]
    congr 1
    · apply BitVec.eq_of_toNat_eq
      rw [BitVec.toNat_ofNat, Nat.add_mul_mod_self_left, Nat.mod_eq_of_lt hx]
    · rw [Nat.add_mul_div_left _ _ (by decide), Nat.div_eq_of_lt hx, Nat.zero_add, ih]

/-- Values of one length with one number are equal. -/
theorem eq_of_val_eq {a b : Value} (hl : a.length = b.length) (h : val a = val b) : a = b := by
  rw [← limbsOf_val a, ← limbsOf_val b, hl, h]

theorem limbAt_of_lt {v : Value} {i : Nat} (h : i < v.length) : limbAt v i = v[i] := by
  simp [limbAt, List.getD_eq_getElem?_getD, List.getElem?_eq_getElem h]

theorem limbAt_of_ge {v : Value} {i : Nat} (h : v.length ≤ i) : limbAt v i = 0 := by
  simp [limbAt, List.getD_eq_getElem?_getD, List.getElem?_eq_none h]

@[simp] theorem limbAt_cons_succ (x : Limb) (xs : Value) (i : Nat) : limbAt (x :: xs) (i + 1) = limbAt xs i := by
  simp [limbAt]

@[simp] theorem limbAt_cons_zero (x : Limb) (xs : Value) : limbAt (x :: xs) 0 = x := by
  simp [limbAt]

theorem limbAt_map_range {n : Nat} (f : Nat → Limb) {i : Nat} (h : i < n) :
    limbAt ((List.range n).map f) i = f i := by
  rw [limbAt_of_lt (by simpa using h)]; simp

/-- Values of one length with the same limbs are equal. -/
theorem eq_of_limbAt_eq {a b : Value} (hl : a.length = b.length) (h : ∀ i, i < a.length → limbAt a i = limbAt b i) :
    a = b := by
  apply List.ext_getElem hl
  intro i h1 h2
  have := h i h1
  rwa [limbAt_of_lt h1, limbAt_of_lt h2] at this

/-- Limb `i` of a value is the `i`-th base-2^64 digit of its number. -/
theorem toNat_limbAt (v : Value) (i : Nat) : (limbAt v i).toNat = val v / 2 ^ (64 * i) % 2 ^ 64 := by
  induction v generalizing i with
  | nil => simp [limbAt]
  | cons x xs ih =>
    have hx := x.isLt
    cases i with
    | zero => simp [Nat.mod_eq_of_lt hx]
    | succ i =>
      rw [limbAt_cons_succ, ih, val_cons]
      have : 2 ^ (64 * (i + 1)) = 2 ^ 64 * 2 ^ (64 * i) := by rw [← Nat.pow_add]; congr 1; omega
      rw [this, ← Nat.div_div_eq_div_mul, Nat.add_mul_div_left _ _ (by decide), Nat.div_eq_of_lt hx, Nat.zero_add]

/-- Bit `p` of a value is bit `p` of its number. -/
theorem bitAt_eq_testBit (v : Value) (p : Nat) : bitAt v p = (val v).testBit p := by
  unfold bitAt
  rw [← BitVec.testBit_toNat, toNat_limbAt, Nat.testBit_mod_two_pow, Nat.testBit_div_two_pow]
  have h : p % 64 < 64 := Nat.mod_lt _ (by decide)
  have e : p % 64 + 64 * (p / 64) = p := Nat.mod_add_div p 64
  simp [h, e]

@[simp] theorem length_zeroN (n : Nat) : (zeroN n).length = n := by simp [zeroN]

@[simp] theorem length_fromNatN (n : Nat) (v : BitVec 64) : (fromNatN n v).length = n := by simp [fromNatN]

@[simp] theorem length_oneN (n : Nat) : (oneN n).length = n := by simp [oneN]

@[simp] theorem length_maxN (n : Nat) : (maxN n).length = n := by simp [maxN]

@[simp] theorem length_parseLimbs (n : Nat) (t : List Byte) : (parseLimbs n t).length = n := by simp [parseLimbs]

@[simp] theorem length_limbwise (f : Limb → Limb → Limb) (n : Nat) (a b : Value) : (limbwise f n a b).length = n := by
  simp [limbwise]

@[simp] theorem length_notN (n : Nat) (a : Value) : (notN n a).length = n := by simp [notN]

@[simp] theorem length_mulN (n : Nat) (a b : Value) : (mulN n a b).length = n := by simp [mulN]

theorem length_shlN {n : Nat} {a : Value} (h : a.length = n) (s : Nat) : (shlN n a s).length = n := by
  unfold shlN
  split
  · exact h
  · split <;> simp

theorem length_shrN {n : Nat} {a : Value} (h : a.length = n) (s : Nat) : (shrN n a s).length = n := by
  unfold shrN
  split
  · exact h
  · split <;> simp

theorem length_addRipple (a b : Value) (c : Bool) (h : a.length = b.length) :
    (addRipple a b c).length = a.length := by
  induction a generalizing b c with
  | nil => cases b <;> rfl
  | cons x xs ih =>
    cases b with
    | nil => simp at h
    | cons y ys => simp [addRipple, ih ys _ (by simpa using h)]

theorem length_subRipple (a b : Value) (c : Bool) (h : a.length = b.length) :
    (subRipple a b c).length = a.length := by
  induction a generalizing b c with
  | nil => cases b <;> rfl
  | cons x xs ih =>
    cases b with
    | nil => simp at h
    | cons y ys => simp [subRipple, ih ys _ (by simpa using h)]

@[simp] theorem length_limbText (x : Limb) : (limbText x).length = 16 := by simp [limbText]

@[simp] theorem length_hexN (n : Nat) (a : Value) : (hexN n a).length = 16 * n := by
  unfold hexN
  rw [List.length_flatMap]
  simp [Nat.mul_comm]

@[simp] theorem length_displayN (n : Nat) (a : Value) : (displayN n a).length = 16 * n + 2 := by
  simp [displayN]

end Sys2Proof.Laws
end

