-- ==== Sys2Proof/Laws/Engines.lean ====
section
/-! SUPPORT. What one limb of the adder, of the subtractor and one row of the limb-parallel multiplier do, as exact
sums (41_arithmetic.md R100, R102, R105). -/

namespace Sys2Proof.Laws

open Sys2Proof.Machine

/-- The sum limb and the carry out are the exact sum: the two overflow checks are never both needed (R100). -/
theorem addLimb_spec (x y : Limb) (c : Bool) :
    (addLimb x y c).1.toNat + 2^64 * (addLimb x y c).2.toNat = x.toNat + y.toNat + c.toNat := by
  have hx := x.isLt; have hy := y.isLt
  have key : ∀ p q : Prop, ∀ (_ : Decidable p) (_ : Decidable q),
      (decide p || decide q).toNat = if p ∨ q then 1 else 0 := by
    intro p q _ _; by_cases p <;> by_cases q <;> simp [*]
  unfold addLimb
  simp only [key, BitVec.toNat_add]
  cases c <;> simp <;> split <;> omega

/-- The difference limb and the borrow out are the exact difference (R102). -/
theorem subLimb_spec (x y : Limb) (c : Bool) :
    (subLimb x y c).1.toNat + y.toNat + c.toNat = x.toNat + 2^64 * (subLimb x y c).2.toNat := by
  have hx := x.isLt; have hy := y.isLt
  have key : ∀ p q : Prop, ∀ (_ : Decidable p) (_ : Decidable q),
      (decide p || decide q).toNat = if p ∨ q then 1 else 0 := by
    intro p q _ _; by_cases p <;> by_cases q <;> simp [*]
  unfold subLimb
  simp only [key, BitVec.toNat_sub]
  cases c <;> simp <;> split <;> omega

@[simp] theorem length_mulRow (x : Limb) (a r : Value) (c : Nat) :
    (mulRow x a r c).length = r.length := by
  induction r generalizing a c with
  | nil => cases a <;> rfl
  | cons y ys ih => cases a with
    | nil => rfl
    | cons z zs => simp [mulRow, ih]

/-- One row adds `x · A + carry` into R modulo its width (R105). -/
theorem val_mulRow (x : Limb) (a r : Value) (c : Nat) (h : r.length ≤ a.length) :
    val (mulRow x a r c) = (val r + val a * x.toNat + c) % 2 ^ (64 * r.length) := by
  induction r generalizing a c with
  | nil => cases a <;> simp [mulRow, Nat.mod_one]
  | cons y ys ih => cases a with
    | nil => simp at h
    | cons z zs =>
      rw [mulRow]
      simp only [val_cons, List.length_cons]
      rw [ih zs _ (by simpa using h), BitVec.toNat_ofNat, Nat.mul_succ, Nat.add_comm (64 * ys.length) 64,
        Nat.pow_add, Nat.mod_mul]
      set t := y.toNat + z.toNat * x.toNat + c with ht
      have e1 : y.toNat + 2 ^ 64 * val ys + (z.toNat + 2 ^ 64 * val zs) * x.toNat + c =
          t + 2^64 * (val ys + val zs * x.toNat) := by rw [ht]; ring
      rw [e1, Nat.add_mul_mod_self_left, Nat.add_mul_div_left _ _ (by decide), Nat.add_comm (t / 2^64)]

end Sys2Proof.Laws
end

