-- ==== Sys2Proof/Laws/Memory.lean ====
section
/-! SUPPORT. The byte spaces: reading after a block write, and the canonical form. -/

namespace Sys2Proof.Laws

open Sys2Proof.Machine

theorem read_append (m m' : Memory) (x : Nat) :
    Memory.read (m ++ m') x = (Memory.read m x).or (Memory.read m' x) := by
  induction m with
  | nil => rfl
  | cons c t ih =>
    by_cases h : c.1 = x
    · simp [Memory.read, h]
    · simp [Memory.read, h, ih]

theorem read_filter (m : Memory) (p : Nat → Bool) (x : Nat) :
    Memory.read (m.filter fun c => p c.1) x = if p x then Memory.read m x else none := by
  induction m with
  | nil => simp [Memory.read]
  | cons c t ih =>
    by_cases hp : p c.1 = true <;> by_cases hx : c.1 = x
    · subst hx; simp [Memory.read, hp]
    · simp [Memory.read, hp, hx, ih]
    · subst hx; simp [hp, ih]
    · simp [Memory.read, hp, hx, ih]

theorem read_cells (a : Nat) (bs : List Byte) (x : Nat) :
    Memory.read (Memory.cells a bs) x = if a ≤ x then bs[x - a]? else none := by
  induction bs generalizing a with
  | nil => simp [Memory.cells, Memory.read]
  | cons b bs ih =>
    simp only [Memory.cells, Memory.read, ih]
    by_cases h : a = x
    · subst h; simp
    · rw [if_neg h]
      by_cases hx : a ≤ x
      · have e : x - a = (x - (a + 1)) + 1 := by omega
        rw [if_pos hx, if_pos (by omega), e, List.getElem?_cons_succ]
      · rw [if_neg hx, if_neg (by omega)]

/-- A read after a block write: the bytes written inside the block, the old byte outside it. -/
theorem read_writeBlock (m : Memory) (a : Nat) (bs : List Byte) (x : Nat) :
    (m.writeBlock a bs).read x = if a ≤ x ∧ x < a + bs.length then bs[x - a]? else m.read x := by
  unfold Memory.writeBlock
  rw [read_append, read_append, read_filter m (fun y => decide (y < a)) x,
    read_filter m (fun y => decide (a + bs.length ≤ y)) x, read_cells]
  by_cases h1 : x < a
  · have : ¬ a + bs.length ≤ x := by omega
    have h3 : ¬ a ≤ x := by omega
    simp [h1, h3, this]
  · by_cases h2 : x < a + bs.length
    · have h3 : a ≤ x := by omega
      have h4 : x - a < bs.length := by omega
      simp [h1, h2, h3, List.getElem?_eq_getElem h4]
    · have h3 : a ≤ x := by omega
      have h4 : a + bs.length ≤ x := by omega
      have h5 : bs.length ≤ x - a := by omega
      simp [h1, h2, h3, h4, List.getElem?_eq_none h5]

theorem mem_cells {a : Nat} {bs : List Byte} {c : Host.Cell} (h : c ∈ Memory.cells a bs) :
    a ≤ c.1 ∧ c.1 < a + bs.length := by
  induction bs generalizing a with
  | nil => simp [Memory.cells] at h
  | cons b bs ih =>
    simp only [Memory.cells, List.mem_cons] at h
    rcases h with rfl | h
    · simp
    · have := ih h; simp only [List.length_cons]; omega

theorem wf_iff_pairwise (m : Memory) : m.wf = true ↔ m.Pairwise fun c d => c.1 < d.1 := by
  induction m with
  | nil => simp [Memory.wf]
  | cons c t ih => simp [Memory.wf, ih]

theorem wf_cells (a : Nat) (bs : List Byte) : (Memory.cells a bs).wf = true := by
  induction bs generalizing a with
  | nil => rfl
  | cons b bs ih =>
    simp only [Memory.cells, Memory.wf, ih, Bool.and_true, List.all_eq_true, decide_eq_true_eq]
    intro d hd
    have := mem_cells hd
    omega

/-- A block write keeps the canonical form. -/
theorem wf_writeBlock {m : Memory} (h : m.wf = true) (a : Nat) (bs : List Byte) : (m.writeBlock a bs).wf = true := by
  rw [wf_iff_pairwise] at h ⊢
  unfold Memory.writeBlock
  rw [List.append_assoc, List.pairwise_append, List.pairwise_append]
  refine ⟨h.filter _, ⟨(wf_iff_pairwise _).1 (wf_cells a bs), h.filter _, ?_⟩, ?_⟩
  · intro c hc d hd
    have h1 := mem_cells hc
    simp only [List.mem_filter, decide_eq_true_eq] at hd
    omega
  · intro c hc d hd
    simp only [List.mem_filter, decide_eq_true_eq, List.mem_append] at hc hd
    rcases hd with hd | hd
    · have := mem_cells hd; omega
    · omega

/-- A block write inside a bound keeps every index below the bound. -/
theorem bound_writeBlock {m : Memory} {cap : Nat} (h : ∀ c ∈ m, c.1 < cap) {a : Nat} {bs : List Byte}
    (hb : a + bs.length ≤ cap) : ∀ c ∈ m.writeBlock a bs, c.1 < cap := by
  intro c hc
  simp only [Memory.writeBlock, List.mem_append, List.mem_filter] at hc
  rcases hc with (⟨hc, -⟩ | hc) | ⟨hc, -⟩
  · exact h c hc
  · have := mem_cells hc; omega
  · exact h c hc

/-- The byte spaces of the state after reset are in canonical form, for every instance. -/
theorem wf_initial (c : Config) : (State.initial c).hin.wf = true ∧ (State.initial c).hout.wf = true := ⟨rfl, rfl⟩

/-- The byte spaces of State.reset are in canonical form. -/
theorem wf_reset : State.reset.hin.wf = true ∧ State.reset.hout.wf = true := ⟨rfl, rfl⟩

theorem read_eq_none_of_lt {m : Memory} {x : Nat} (h : ∀ c ∈ m, x < c.1) : m.read x = none := by
  induction m with
  | nil => rfl
  | cons c t ih =>
    have h1 : c.1 ≠ x := by have := h c (by simp); omega
    rw [Memory.read, if_neg h1]
    exact ih fun d hd => h d (by simp [hd])

/-- In canonical form, memories that read alike are equal data. -/
theorem eq_of_read_eq {m m' : Memory} (h : m.wf = true) (h' : m'.wf = true) (e : ∀ x, m.read x = m'.read x) :
    m = m' := by
  induction m generalizing m' with
  | nil =>
    cases m' with
    | nil => rfl
    | cons c t => have := e c.1; simp [Memory.read] at this
  | cons c t ih =>
    cases m' with
    | nil => have := e c.1; simp [Memory.read] at this
    | cons d u =>
      simp only [Memory.wf, Bool.and_eq_true, List.all_eq_true, decide_eq_true_eq] at h h'
      have key : c.1 = d.1 := by
        by_contra hne
        rcases Nat.lt_or_gt_of_ne hne with hlt | hgt
        · have := e c.1
          have hn : Memory.read (d :: u) c.1 = none :=
            read_eq_none_of_lt (by
              intro x hx
              rcases List.mem_cons.1 hx with rfl | hx
              · exact hlt
              · have := h'.1 x hx; omega)
          rw [hn] at this
          simp [Memory.read] at this
        · have := e d.1
          have hn : Memory.read (c :: t) d.1 = none :=
            read_eq_none_of_lt (by
              intro x hx
              rcases List.mem_cons.1 hx with rfl | hx
              · exact hgt
              · have := h.1 x hx; omega)
          rw [hn] at this
          simp [Memory.read] at this
      have hv : c.2 = d.2 := by
        have := e c.1
        simpa [Memory.read, key] using this
      have hcd : c = d := Prod.ext key hv
      subst hcd
      congr 1
      apply ih h.2 h'.2
      intro x
      by_cases hx : c.1 = x
      · subst hx
        rw [read_eq_none_of_lt h.1, read_eq_none_of_lt h'.1]
      · have := e x
        simpa [Memory.read, hx] using this

end Sys2Proof.Laws
end

