-- ==== Sys2Proof/Laws/State.lean ====
section
/-! SUPPORT. The fields of the state after each update: one lemma per field per update, each true by unfolding the
update once, so that no later proof unfolds a record update. -/

namespace Sys2Proof.Laws

open Sys2Proof.Machine

/-! `setStatus` -/

@[simp] theorem setStatus_cfg (c : StatusCode) (s : State) :
    (s.setStatus c).cfg = s.cfg := rfl

@[simp] theorem setStatus_regs (c : StatusCode) (s : State) :
    (s.setStatus c).regs = s.regs := rfl

@[simp] theorem setStatus_status (c : StatusCode) (s : State) :
    (s.setStatus c).status = c := rfl

@[simp] theorem setStatus_hinLen (c : StatusCode) (s : State) :
    (s.setStatus c).hinLen = s.hinLen := rfl

@[simp] theorem setStatus_hin (c : StatusCode) (s : State) :
    (s.setStatus c).hin = s.hin := rfl

@[simp] theorem setStatus_houtLen (c : StatusCode) (s : State) :
    (s.setStatus c).houtLen = s.houtLen := rfl

@[simp] theorem setStatus_hout (c : StatusCode) (s : State) :
    (s.setStatus c).hout = s.hout := rfl

@[simp] theorem setStatus_faultMark (c : StatusCode) (s : State) :
    (s.setStatus c).faultMark = s.faultMark := rfl

@[simp] theorem setStatus_refusalMark (c : StatusCode) (s : State) :
    (s.setStatus c).refusalMark = s.refusalMark := rfl

@[simp] theorem setStatus_launch (c : StatusCode) (s : State) :
    (s.setStatus c).launch = s.launch := rfl

@[simp] theorem setStatus_draws (c : StatusCode) (s : State) :
    (s.setStatus c).draws = s.draws := rfl

@[simp] theorem setStatus_pending (c : StatusCode) (s : State) :
    (s.setStatus c).pending = s.pending := rfl

@[simp] theorem setStatus_delivery (c : StatusCode) (s : State) :
    (s.setStatus c).delivery = s.delivery := rfl

@[simp] theorem setStatus_ci (c : StatusCode) (s : State) :
    (s.setStatus c).ci = s.ci := rfl

@[simp] theorem setStatus_returned (c : StatusCode) (s : State) :
    (s.setStatus c).returned = s.returned := rfl

/-! `setReg` -/

@[simp] theorem setReg_cfg (r : Reg) (v : Value) (s : State) :
    (s.setReg r v).cfg = s.cfg := rfl

@[simp] theorem setReg_regs (r : Reg) (v : Value) (s : State) :
    (s.setReg r v).regs = s.regs.set r { written := true, limbs := v } := rfl

@[simp] theorem setReg_status (r : Reg) (v : Value) (s : State) :
    (s.setReg r v).status = s.status := rfl

@[simp] theorem setReg_hinLen (r : Reg) (v : Value) (s : State) :
    (s.setReg r v).hinLen = s.hinLen := rfl

@[simp] theorem setReg_hin (r : Reg) (v : Value) (s : State) :
    (s.setReg r v).hin = s.hin := rfl

@[simp] theorem setReg_houtLen (r : Reg) (v : Value) (s : State) :
    (s.setReg r v).houtLen = s.houtLen := rfl

@[simp] theorem setReg_hout (r : Reg) (v : Value) (s : State) :
    (s.setReg r v).hout = s.hout := rfl

@[simp] theorem setReg_faultMark (r : Reg) (v : Value) (s : State) :
    (s.setReg r v).faultMark = s.faultMark := rfl

@[simp] theorem setReg_refusalMark (r : Reg) (v : Value) (s : State) :
    (s.setReg r v).refusalMark = s.refusalMark := rfl

@[simp] theorem setReg_launch (r : Reg) (v : Value) (s : State) :
    (s.setReg r v).launch = s.launch := rfl

@[simp] theorem setReg_draws (r : Reg) (v : Value) (s : State) :
    (s.setReg r v).draws = s.draws := rfl

@[simp] theorem setReg_pending (r : Reg) (v : Value) (s : State) :
    (s.setReg r v).pending = s.pending := rfl

@[simp] theorem setReg_delivery (r : Reg) (v : Value) (s : State) :
    (s.setReg r v).delivery = s.delivery := rfl

@[simp] theorem setReg_ci (r : Reg) (v : Value) (s : State) :
    (s.setReg r v).ci = s.ci := rfl

@[simp] theorem setReg_returned (r : Reg) (v : Value) (s : State) :
    (s.setReg r v).returned = s.returned := rfl

/-! `noteRead` -/

@[simp] theorem noteRead_cfg (r : Reg) (s : State) :
    (s.noteRead r).cfg = s.cfg := rfl

@[simp] theorem noteRead_regs (r : Reg) (s : State) :
    (s.noteRead r).regs = s.regs := rfl

@[simp] theorem noteRead_status (r : Reg) (s : State) :
    (s.noteRead r).status = s.status := rfl

@[simp] theorem noteRead_hinLen (r : Reg) (s : State) :
    (s.noteRead r).hinLen = s.hinLen := rfl

@[simp] theorem noteRead_hin (r : Reg) (s : State) :
    (s.noteRead r).hin = s.hin := rfl

@[simp] theorem noteRead_houtLen (r : Reg) (s : State) :
    (s.noteRead r).houtLen = s.houtLen := rfl

@[simp] theorem noteRead_hout (r : Reg) (s : State) :
    (s.noteRead r).hout = s.hout := rfl

@[simp] theorem noteRead_faultMark (r : Reg) (s : State) :
    (s.noteRead r).faultMark = s.faultMark.or (if (s.slot r).written then none else some (.unwrittenRead r)) := rfl

@[simp] theorem noteRead_refusalMark (r : Reg) (s : State) :
    (s.noteRead r).refusalMark = s.refusalMark := rfl

@[simp] theorem noteRead_launch (r : Reg) (s : State) :
    (s.noteRead r).launch = s.launch := rfl

@[simp] theorem noteRead_draws (r : Reg) (s : State) :
    (s.noteRead r).draws = s.draws := rfl

@[simp] theorem noteRead_pending (r : Reg) (s : State) :
    (s.noteRead r).pending = s.pending := rfl

@[simp] theorem noteRead_delivery (r : Reg) (s : State) :
    (s.noteRead r).delivery = s.delivery := rfl

@[simp] theorem noteRead_ci (r : Reg) (s : State) :
    (s.noteRead r).ci = s.ci := rfl

@[simp] theorem noteRead_returned (r : Reg) (s : State) :
    (s.noteRead r).returned = s.returned := rfl

/-! `setHout` -/

@[simp] theorem setHout_cfg (text : List Byte) (len : Nat) (s : State) :
    (s.setHout text len).cfg = s.cfg := rfl

@[simp] theorem setHout_regs (text : List Byte) (len : Nat) (s : State) :
    (s.setHout text len).regs = s.regs := rfl

@[simp] theorem setHout_status (text : List Byte) (len : Nat) (s : State) :
    (s.setHout text len).status = s.status := rfl

@[simp] theorem setHout_hinLen (text : List Byte) (len : Nat) (s : State) :
    (s.setHout text len).hinLen = s.hinLen := rfl

@[simp] theorem setHout_hin (text : List Byte) (len : Nat) (s : State) :
    (s.setHout text len).hin = s.hin := rfl

@[simp] theorem setHout_houtLen (text : List Byte) (len : Nat) (s : State) :
    (s.setHout text len).houtLen = BitVec.ofNat 64 len := rfl

@[simp] theorem setHout_hout (text : List Byte) (len : Nat) (s : State) :
    (s.setHout text len).hout = s.hout.writeBlock 0 text := rfl

@[simp] theorem setHout_faultMark (text : List Byte) (len : Nat) (s : State) :
    (s.setHout text len).faultMark = s.faultMark := rfl

@[simp] theorem setHout_refusalMark (text : List Byte) (len : Nat) (s : State) :
    (s.setHout text len).refusalMark = s.refusalMark := rfl

@[simp] theorem setHout_launch (text : List Byte) (len : Nat) (s : State) :
    (s.setHout text len).launch = s.launch := rfl

@[simp] theorem setHout_draws (text : List Byte) (len : Nat) (s : State) :
    (s.setHout text len).draws = s.draws := rfl

@[simp] theorem setHout_pending (text : List Byte) (len : Nat) (s : State) :
    (s.setHout text len).pending = s.pending := rfl

@[simp] theorem setHout_delivery (text : List Byte) (len : Nat) (s : State) :
    (s.setHout text len).delivery = s.delivery := rfl

@[simp] theorem setHout_ci (text : List Byte) (len : Nat) (s : State) :
    (s.setHout text len).ci = s.ci := rfl

@[simp] theorem setHout_returned (text : List Byte) (len : Nat) (s : State) :
    (s.setHout text len).returned = s.returned := rfl

/-! `issueCommand` -/

@[simp] theorem issueCommand_cfg (s : State) :
    (s.issueCommand).cfg = s.cfg := rfl

@[simp] theorem issueCommand_regs (s : State) :
    (s.issueCommand).regs = s.regs := rfl

@[simp] theorem issueCommand_status (s : State) :
    (s.issueCommand).status = s.status := rfl

@[simp] theorem issueCommand_hinLen (s : State) :
    (s.issueCommand).hinLen = s.hinLen := rfl

@[simp] theorem issueCommand_hin (s : State) :
    (s.issueCommand).hin = s.hin := rfl

@[simp] theorem issueCommand_houtLen (s : State) :
    (s.issueCommand).houtLen = s.houtLen := rfl

@[simp] theorem issueCommand_hout (s : State) :
    (s.issueCommand).hout = s.hout := rfl

@[simp] theorem issueCommand_faultMark (s : State) :
    (s.issueCommand).faultMark = s.faultMark := rfl

@[simp] theorem issueCommand_refusalMark (s : State) :
    (s.issueCommand).refusalMark = s.refusalMark := rfl

@[simp] theorem issueCommand_launch (s : State) :
    (s.issueCommand).launch = s.launch := rfl

@[simp] theorem issueCommand_draws (s : State) :
    (s.issueCommand).draws = s.draws + 1 := rfl

@[simp] theorem issueCommand_pending (s : State) :
    (s.issueCommand).pending = s.pending := rfl

@[simp] theorem issueCommand_delivery (s : State) :
    (s.issueCommand).delivery = [] := rfl

@[simp] theorem issueCommand_ci (s : State) :
    (s.issueCommand).ci = s.ci + 1 := rfl

@[simp] theorem issueCommand_returned (s : State) :
    (s.issueCommand).returned = s.returned := rfl

/-! `giveHost` -/

@[simp] theorem giveHost_cfg (width value : Nat) (s : State) :
    (s.giveHost width value).cfg = s.cfg := rfl

@[simp] theorem giveHost_regs (width value : Nat) (s : State) :
    (s.giveHost width value).regs = s.regs := rfl

@[simp] theorem giveHost_status (width value : Nat) (s : State) :
    (s.giveHost width value).status = s.status := rfl

@[simp] theorem giveHost_hinLen (width value : Nat) (s : State) :
    (s.giveHost width value).hinLen = s.hinLen := rfl

@[simp] theorem giveHost_hin (width value : Nat) (s : State) :
    (s.giveHost width value).hin = s.hin := rfl

@[simp] theorem giveHost_houtLen (width value : Nat) (s : State) :
    (s.giveHost width value).houtLen = s.houtLen := rfl

@[simp] theorem giveHost_hout (width value : Nat) (s : State) :
    (s.giveHost width value).hout = s.hout := rfl

@[simp] theorem giveHost_faultMark (width value : Nat) (s : State) :
    (s.giveHost width value).faultMark = s.faultMark := rfl

@[simp] theorem giveHost_refusalMark (width value : Nat) (s : State) :
    (s.giveHost width value).refusalMark = s.refusalMark := rfl

@[simp] theorem giveHost_launch (width value : Nat) (s : State) :
    (s.giveHost width value).launch = s.launch := rfl

@[simp] theorem giveHost_draws (width value : Nat) (s : State) :
    (s.giveHost width value).draws = s.draws := rfl

@[simp] theorem giveHost_pending (width value : Nat) (s : State) :
    (s.giveHost width value).pending = s.pending := rfl

@[simp] theorem giveHost_delivery (width value : Nat) (s : State) :
    (s.giveHost width value).delivery = s.delivery := rfl

@[simp] theorem giveHost_ci (width value : Nat) (s : State) :
    (s.giveHost width value).ci = s.ci := rfl

@[simp] theorem giveHost_returned (width value : Nat) (s : State) :
    (s.giveHost width value).returned = { width := width, value := value } := rfl

/-! `resetBlock` -/

@[simp] theorem resetBlock_cfg (s : State) :
    (s.resetBlock).cfg = s.cfg := rfl

@[simp] theorem resetBlock_regs (s : State) :
    (s.resetBlock).regs = Vector.replicate 16 { written := false, limbs := List.replicate s.cfg.n 0 } := rfl

@[simp] theorem resetBlock_status (s : State) :
    (s.resetBlock).status = .ok := rfl

@[simp] theorem resetBlock_hinLen (s : State) :
    (s.resetBlock).hinLen = 0 := rfl

@[simp] theorem resetBlock_hin (s : State) :
    (s.resetBlock).hin = [] := rfl

@[simp] theorem resetBlock_houtLen (s : State) :
    (s.resetBlock).houtLen = 0 := rfl

@[simp] theorem resetBlock_hout (s : State) :
    (s.resetBlock).hout = [] := rfl

@[simp] theorem resetBlock_faultMark (s : State) :
    (s.resetBlock).faultMark = none := rfl

@[simp] theorem resetBlock_refusalMark (s : State) :
    (s.resetBlock).refusalMark = none := rfl

@[simp] theorem resetBlock_launch (s : State) :
    (s.resetBlock).launch = s.launch + 1 := rfl

@[simp] theorem resetBlock_draws (s : State) :
    (s.resetBlock).draws = s.draws + 1 := rfl

@[simp] theorem resetBlock_pending (s : State) :
    (s.resetBlock).pending = s.pending := rfl

@[simp] theorem resetBlock_delivery (s : State) :
    (s.resetBlock).delivery = [] := rfl

@[simp] theorem resetBlock_ci (s : State) :
    (s.resetBlock).ci = s.ci := rfl

@[simp] theorem resetBlock_returned (s : State) :
    (s.resetBlock).returned = s.returned := rfl

/-! `refuseAction` -/

@[simp] theorem refuseAction_cfg (m : RefusedAction) (s : State) :
    (s.refuseAction m).cfg = s.cfg := rfl

@[simp] theorem refuseAction_regs (m : RefusedAction) (s : State) :
    (s.refuseAction m).regs = s.regs := rfl

@[simp] theorem refuseAction_status (m : RefusedAction) (s : State) :
    (s.refuseAction m).status = s.status := rfl

@[simp] theorem refuseAction_hinLen (m : RefusedAction) (s : State) :
    (s.refuseAction m).hinLen = s.hinLen := rfl

@[simp] theorem refuseAction_hin (m : RefusedAction) (s : State) :
    (s.refuseAction m).hin = s.hin := rfl

@[simp] theorem refuseAction_houtLen (m : RefusedAction) (s : State) :
    (s.refuseAction m).houtLen = s.houtLen := rfl

@[simp] theorem refuseAction_hout (m : RefusedAction) (s : State) :
    (s.refuseAction m).hout = s.hout := rfl

@[simp] theorem refuseAction_faultMark (m : RefusedAction) (s : State) :
    (s.refuseAction m).faultMark = s.faultMark := rfl

@[simp] theorem refuseAction_launch (m : RefusedAction) (s : State) :
    (s.refuseAction m).launch = s.launch := rfl

@[simp] theorem refuseAction_draws (m : RefusedAction) (s : State) :
    (s.refuseAction m).draws = s.draws := rfl

@[simp] theorem refuseAction_pending (m : RefusedAction) (s : State) :
    (s.refuseAction m).pending = s.pending := rfl

@[simp] theorem refuseAction_ci (m : RefusedAction) (s : State) :
    (s.refuseAction m).ci = s.ci := rfl

@[simp] theorem refuseAction_returned (m : RefusedAction) (s : State) :
    (s.refuseAction m).returned = s.returned := rfl

@[simp] theorem refuseAction_refusalMark (m : RefusedAction) (s : State) :
    (s.refuseAction m).refusalMark = s.refusalMark.or (some m) := rfl

@[simp] theorem refuseAction_delivery (m : RefusedAction) (s : State) :
    (s.refuseAction m).delivery = [] := rfl

@[simp] theorem refuseAction_slot (m : RefusedAction) (s : State) (q : Reg) :
    (s.refuseAction m).slot q = s.slot q := rfl

@[simp] theorem setStatus_slot (c : StatusCode) (s : State) (q : Reg) :
    (s.setStatus c).slot q = s.slot q := rfl

@[simp] theorem noteRead_slot (r : Reg) (s : State) (q : Reg) :
    (s.noteRead r).slot q = s.slot q := rfl

@[simp] theorem setHout_slot (text : List Byte) (len : Nat) (s : State) (q : Reg) :
    (s.setHout text len).slot q = s.slot q := rfl

@[simp] theorem issueCommand_slot (s : State) (q : Reg) :
    (s.issueCommand).slot q = s.slot q := rfl

@[simp] theorem giveHost_slot (width value : Nat) (s : State) (q : Reg) :
    (s.giveHost width value).slot q = s.slot q := rfl

/-! Reading one register after a write. -/

@[simp] theorem setReg_slot_self (r : Reg) (v : Value) (s : State) :
    (s.setReg r v).slot r = { written := true, limbs := v } := by
  simp [State.slot]

theorem setReg_slot_ne {r q : Reg} (v : Value) (s : State) (h : q ≠ r) : (s.setReg r v).slot q = s.slot q := by
  have : ¬ (r.val = q.val) := fun e => h (Fin.ext e.symm)
  simp [State.slot, this]

@[simp] theorem resetBlock_slot (s : State) (q : Reg) :
    s.resetBlock.slot q = { written := false, limbs := List.replicate s.cfg.n 0 } := by
  simp [State.slot]

@[simp] theorem initial_slot (c : Config) (q : Reg) :
    (State.initial c).slot q = { written := false, limbs := List.replicate c.n 0 } := by
  simp [State.slot, State.initial]

@[simp] theorem raiseStatus_eq (c : StatusCode) (s : State) : s.raiseStatus c = s.setStatus c := rfl

/-- A register that is written reads as its limbs. -/
theorem value_of_written {s : State} {r : Reg} (h : (s.slot r).written = true) : s.value r = (s.slot r).limbs := by
  simp [State.value, h]

/-- A register just written reads as what was written to it. -/
@[simp] theorem value_setReg_self (r : Reg) (v : Value) (s : State) : (s.setReg r v).value r = v := by
  simp [State.value]

/-- Noting a read in the fault mark changes no register's value. -/
@[simp] theorem value_noteRead (r q : Reg) (s : State) : (s.noteRead r).value q = s.value q := rfl

/-- STATUS does not enter a register's value. -/
@[simp] theorem value_setStatus (c : StatusCode) (q : Reg) (s : State) : (s.setStatus c).value q = s.value q := rfl

/-- Issuing a command changes no register's value. -/
@[simp] theorem value_issueCommand (q : Reg) (s : State) : s.issueCommand.value q = s.value q := rfl

/-- Under the invariant every register reads as N limbs, written or not. -/
theorem length_value {s : State} (h : Safety.Invariant s) (r : Reg) : (s.value r).length = s.cfg.n := by
  unfold State.value
  split
  · exact h.limbs r
  · simp

/-- Noting a read of a written register leaves the fault mark alone. -/
theorem noteRead_of_written {s : State} {r : Reg} (h : (s.slot r).written = true) : s.noteRead r = s := by
  simp [State.noteRead, h]

end Sys2Proof.Laws
end

