-- ==== Sys2Proof/Laws/Operands.lean ====
section
/-! SUPPORT. What each operand format can do, said once: every format answers a next state, and which. -/

namespace Sys2Proof.Laws

open Sys2Proof.Machine Sys2Proof.Safety

theorem keepsInput_refl (s : State) : KeepsInput s s := ⟨rfl, fun _ => rfl⟩

theorem keepsOutput_refl (s : State) : KeepsOutput s s := ⟨rfl, fun _ => rfl⟩

/-- No source is unwritten exactly when every source is written (10_state.md R23). -/
theorem firstUnwritten_eq_none {s : State} {rs : List Reg} :
    s.firstUnwritten rs = none ↔ ∀ r ∈ rs, (s.slot r).written = true := by
  simp [State.firstUnwritten, List.find?_eq_none]

theorem firstUnwritten_unwritten {s : State} {rs : List Reg} {r : Reg} (h : s.firstUnwritten rs = some r) :
    (s.slot r).written = false := by
  simpa using List.find?_some h

/-- A command whose sources are written runs. -/
theorem withSources_of_written {s t : State} {rs : List Reg} {dest : Option Reg}
    (h : ∀ r ∈ rs, (s.slot r).written = true) : withSources rs dest t s = .next t := by
  simp [withSources, firstUnwritten_eq_none.2 h]

/-- What a command leaves when a source is unwritten. -/
theorem noResult_withoutResult {s : State} {r : Reg} (h : (s.slot r).written = false) (dest : Option Reg) :
    NoResult r dest s (s.withoutResult r dest) := by
  cases dest with
  | none =>
    exact ⟨by simp [State.withoutResult, h], by simp, fun _ _ => rfl, ⟨rfl, fun _ => rfl⟩, ⟨rfl, fun _ => rfl⟩,
      ⟨rfl, rfl, rfl, rfl, rfl, rfl, rfl, rfl⟩⟩
  | some rd =>
    refine ⟨by simp [State.withoutResult, h], ?_, ?_, ⟨rfl, fun _ => rfl⟩, ⟨rfl, fun _ => rfl⟩,
      ⟨rfl, rfl, rfl, rfl, rfl, rfl, rfl, rfl⟩⟩
    · rintro q ⟨⟩
      simp [State.withoutResult, State.freeResult]
    · intro q hq
      have hne : q ≠ rd := fun e => hq (by rw [e])
      simp only [State.withoutResult, setStatus_slot]
      rw [setReg_slot_ne _ _ hne, noteRead_slot]

/-- A command with an unwritten source completes without a result. -/
theorem withSources_of_unwritten {s t : State} {rs : List Reg} {dest : Option Reg} {r : Reg}
    (h : s.firstUnwritten rs = some r) : ∃ u, withSources rs dest t s = .next u ∧ NoResult r dest s u :=
  ⟨_, by simp [withSources, h], noResult_withoutResult (firstUnwritten_unwritten h) dest⟩

/-- `writeResult` is a command's result with its frame. -/
theorem writesResult_writeResult (rd : Reg) (v : Value) (s : State) : WritesResult rd v s (s.writeResult rd v) := by
  refine ⟨by simp [State.writeResult], ?_, rfl, rfl, ⟨rfl, fun _ => rfl⟩, ⟨rfl, fun _ => rfl⟩,
    ⟨rfl, rfl, rfl, rfl, rfl, rfl, rfl, rfl⟩⟩
  intro q hq
  simp only [State.writeResult, setStatus_slot]
  exact setReg_slot_ne _ _ hq

/-- Format D. -/
theorem formatD_spec (f : Nat → Value) (rd : Reg) (s : State) :
    ∃ t, formatD f rd s = .next t ∧ WritesResult rd (f s.cfg.n) s t :=
  ⟨_, rfl, writesResult_writeResult rd _ s⟩

/-- Format DI. -/
theorem formatDI_spec (f : Nat → BitVec 64 → Value) (rd : Reg) (imm : BitVec 64) (s : State) :
    ∃ t, formatDI f rd imm s = .next t ∧ WritesResult rd (f s.cfg.n imm) s t :=
  ⟨_, rfl, writesResult_writeResult rd _ s⟩

/-- Format DST with its sources written. -/
theorem formatDST_spec (f : Nat → Value → Value → Value) (rd rs1 rs2 : Reg) {s : State}
    (h : ∀ r ∈ [rs1, rs2], (s.slot r).written = true) :
    ∃ t, formatDST f rd rs1 rs2 s = .next t ∧ WritesResult rd (f s.cfg.n (s.value rs1) (s.value rs2)) s t :=
  ⟨_, withSources_of_written h, writesResult_writeResult rd _ s⟩

/-- Format DS with its source written. -/
theorem formatDS_spec (f : Nat → Value → Value) (rd rs1 : Reg) {s : State}
    (h : ∀ r ∈ [rs1], (s.slot r).written = true) :
    ∃ t, formatDS f rd rs1 s = .next t ∧ WritesResult rd (f s.cfg.n (s.value rs1)) s t :=
  ⟨_, withSources_of_written h, writesResult_writeResult rd _ s⟩

/-- Format DSI with its source written. -/
theorem formatDSI_spec (f : Nat → Value → Nat → Value) (rd rs1 : Reg) (imm : BitVec 64) {s : State}
    (h : ∀ r ∈ [rs1], (s.slot r).written = true) :
    ∃ t, formatDSI f rd rs1 imm s = .next t ∧ WritesResult rd (f s.cfg.n (s.value rs1) imm.toNat) s t :=
  ⟨_, withSources_of_written h, writesResult_writeResult rd _ s⟩

/-- Format S with its source written, for a text function whose texts have the length it says. -/
theorem formatS_spec (f : Nat → Value → List Byte) (len : Nat → Nat) (rs1 : Reg) {s : State}
    (h : ∀ r ∈ [rs1], (s.slot r).written = true) (hlen : (f s.cfg.n (s.value rs1)).length = len s.cfg.n) :
    ∃ t, formatS f len rs1 s = .next t ∧ EmitsText (f s.cfg.n (s.value rs1)) s t := by
  refine ⟨_, withSources_of_written h, ⟨?_, ?_, ?_, fun _ => rfl, rfl, rfl, ⟨rfl, fun _ => rfl⟩,
    ⟨rfl, rfl, rfl, rfl, rfl, rfl, rfl, rfl⟩⟩⟩
  · intro a ha
    simp [read_writeBlock, ha]
  · intro a ha
    simp [read_writeBlock, Nat.not_lt.2 ha]
  · simp [hlen]

end Sys2Proof.Laws
end

