-- ==== Sys2Proof/Laws/Exec.lean ====
section
/-! SUPPORT. All that exec can do, said once: a command with its sources written answers the state `effect` gives, and a
command with an unwritten source leaves the state `State.withoutResult` gives. -/

namespace Sys2Proof.Laws

open Sys2Proof.Machine Sys2Proof.Safety

/-- The state a command leaves when its sources are written. -/
def effect (s : State) : Instr → State
  | .zero rd => s.writeResult rd (zeroN s.cfg.n)
  | .one rd => s.writeResult rd (oneN s.cfg.n)
  | .fromnat rd imm => s.writeResult rd (fromNatN s.cfg.n imm)
  | .max rd => s.writeResult rd (maxN s.cfg.n)
  | .fromhex rd =>
    match parseHex s.cfg.n s.cfg.order s.hinText with
    | .ok v => s.writeResult rd v
    | .error e => s.raiseStatus e.code
  | .add rd rs1 rs2 => s.writeResult rd (addN s.cfg.n (s.value rs1) (s.value rs2))
  | .sub rd rs1 rs2 => s.writeResult rd (subN s.cfg.n (s.value rs1) (s.value rs2))
  | .mul rd rs1 rs2 => s.writeResult rd (mulN s.cfg.n (s.value rs1) (s.value rs2))
  | .and rd rs1 rs2 => s.writeResult rd (andN s.cfg.n (s.value rs1) (s.value rs2))
  | .or rd rs1 rs2 => s.writeResult rd (orN s.cfg.n (s.value rs1) (s.value rs2))
  | .xor rd rs1 rs2 => s.writeResult rd (xorN s.cfg.n (s.value rs1) (s.value rs2))
  | .not rd rs1 => s.writeResult rd (notN s.cfg.n (s.value rs1))
  | .shl rd rs1 imm => s.writeResult rd (shlN s.cfg.n (s.value rs1) imm.toNat)
  | .shr rd rs1 imm => s.writeResult rd (shrN s.cfg.n (s.value rs1) imm.toNat)
  | .tohex rs1 => (s.setHout (hexN s.cfg.n (s.value rs1)) (16 * s.cfg.n)).setStatus .ok
  | .display rs1 => (s.setHout (displayN s.cfg.n (s.value rs1)) (16 * s.cfg.n + 2)).setStatus .ok

/-- exec is the command's effect behind the check of its sources. -/
theorem exec_eq_withSources (i : Instr) (s : State) : exec i s = withSources i.sources i.dest (effect s i) s := by
  cases i
  case fromhex rd =>
    simp only [exec, execFromhex, withSources, Instr.sources, State.firstUnwritten, List.find?_nil, effect]
    cases parseHex s.cfg.n s.cfg.order s.hinText <;> rfl
  all_goals rfl

theorem exec_of_written {i : Instr} {s : State} (h : SourcesWritten i s) : exec i s = .next (effect s i) := by
  rw [exec_eq_withSources]
  exact withSources_of_written h

/-- A command that has a next state has one of these two. -/
theorem exec_cases {i : Instr} {s t : State} (h : exec i s = .next t) :
    (SourcesWritten i s ∧ t = effect s i) ∨
      ∃ r, s.firstUnwritten i.sources = some r ∧ t = s.withoutResult r i.dest := by
  rw [exec_eq_withSources, withSources] at h
  split at h
  · next hf => exact .inl ⟨firstUnwritten_eq_none.1 hf, (Host.Outcome.next.inj h).symm⟩
  · next r hf => exact .inr ⟨r, hf, (Host.Outcome.next.inj h).symm⟩

end Sys2Proof.Laws
end

