-- ==== Sys2Proof/Laws/PerInstr.lean ====
section
/-! SUPPORT. The statements made per instruction (LAWS.json): the word of a command carries its OP value, and its
reserved field is zero (30_encoding.md R64, R66). -/

namespace Sys2Proof.Laws.EncodedFields

/-- The word of a command carries its OP value and a zero reserved field. -/
def Statement (i : Instr) : Prop := fieldOp (encode i) = i.opcode ∧ fieldRsv (encode i) = 0

theorem zero (rd : Reg) : Statement (.zero rd) := ⟨by simp [encode], by simp [encode]⟩
theorem one (rd : Reg) : Statement (.one rd) := ⟨by simp [encode], by simp [encode]⟩
theorem fromnat (rd : Reg) (imm : BitVec 64) : Statement (.fromnat rd imm) := ⟨by simp [encode], by simp [encode]⟩
theorem max (rd : Reg) : Statement (.max rd) := ⟨by simp [encode], by simp [encode]⟩
theorem fromhex (rd : Reg) : Statement (.fromhex rd) := ⟨by simp [encode], by simp [encode]⟩
theorem add (rd rs1 rs2 : Reg) : Statement (.add rd rs1 rs2) := ⟨by simp [encode], by simp [encode]⟩
theorem sub (rd rs1 rs2 : Reg) : Statement (.sub rd rs1 rs2) := ⟨by simp [encode], by simp [encode]⟩
theorem mul (rd rs1 rs2 : Reg) : Statement (.mul rd rs1 rs2) := ⟨by simp [encode], by simp [encode]⟩
theorem and (rd rs1 rs2 : Reg) : Statement (.and rd rs1 rs2) := ⟨by simp [encode], by simp [encode]⟩
theorem or (rd rs1 rs2 : Reg) : Statement (.or rd rs1 rs2) := ⟨by simp [encode], by simp [encode]⟩
theorem xor (rd rs1 rs2 : Reg) : Statement (.xor rd rs1 rs2) := ⟨by simp [encode], by simp [encode]⟩
theorem not (rd rs1 : Reg) : Statement (.not rd rs1) := ⟨by simp [encode], by simp [encode]⟩
theorem shl (rd rs1 : Reg) (imm : BitVec 64) : Statement (.shl rd rs1 imm) := ⟨by simp [encode], by simp [encode]⟩
theorem shr (rd rs1 : Reg) (imm : BitVec 64) : Statement (.shr rd rs1 imm) := ⟨by simp [encode], by simp [encode]⟩
theorem tohex (rs1 : Reg) : Statement (.tohex rs1) := ⟨by simp [encode], by simp [encode]⟩
theorem display (rs1 : Reg) : Statement (.display rs1) := ⟨by simp [encode], by simp [encode]⟩

end Sys2Proof.Laws.EncodedFields
end

