-- ==== Sys2Proof/Laws/Ports.lean ====
section
/-! SUPPORT. The ports: what noting a view read can change, and the invariant across updates of fields it does not
speak of. -/

namespace Sys2Proof.Laws

open Sys2Proof.Machine Sys2Proof.Safety

/-- Without a refusal mark an action of the host is what the host table says (60_exceptions.md R174). -/
theorem perform_eq_act {s : State} (h : s.refusalMark = none) (a : HostAction) : perform a s = act a s := by
  simp [perform, h]

/-- Under the refusal mark only a reset has a meaning (60_exceptions.md R173). -/
theorem perform_of_mark {s : State} {m : RefusedAction} (h : s.refusalMark = some m) {a : HostAction} (ha : a ≠ .reset) :
    perform a s = .refused (.underRefusalMark m) := by
  cases a <;> simp_all [perform]

/-- An action that has a next state has the one the host table says. -/
theorem act_of_perform {a : HostAction} {s t : State} (h : perform a s = .next t) : act a s = .next t := by
  cases hm : s.refusalMark with
  | none => rwa [perform_eq_act hm] at h
  | some m =>
    cases a <;> simp only [perform, hm] at h <;> first | exact h | cases h

/-- Noting a VVIEW read changes nothing but the fault mark (10_state.md R23). -/
theorem noteView_eq (s : State) (k w : Nat) : ∃ m, s.noteView k w = { s with faultMark := m } := by
  induction w with
  | zero => exact ⟨_, rfl⟩
  | succ w ih =>
    obtain ⟨m, hm⟩ := ih
    rw [State.noteView, hm]; exact ⟨_, rfl⟩

@[simp] theorem noteView_slot (s : State) (k w : Nat) (r : Reg) : (s.noteView k w).slot r = s.slot r := by
  obtain ⟨m, hm⟩ := noteView_eq s k w
  rw [hm]; rfl

/-- A view read of written registers notes nothing (10_state.md R23). -/
theorem noteView_of_written {s : State} {k w : Nat} (h : ∀ j, j < w → (s.slot (viewReg s.cfg (k + j))).written = true) :
    (s.noteView k w).faultMark = s.faultMark := by
  induction w with
  | zero => rfl
  | succ w ih =>
    rw [State.noteView, State.noteRead]
    simp [h w (Nat.lt_succ_self w), ih fun j hj => h j (Nat.lt_succ_of_lt hj)]

/-- A view read notes the register of its lowest byte that belongs to an unwritten one, unless a mark was set
(10_state.md R23; log 3, log 21). -/
theorem noteView_of_unwritten {s : State} {k w j : Nat} (hj : j < w)
    (hu : (s.slot (viewReg s.cfg (k + j))).written = false)
    (hw : ∀ i, i < j → (s.slot (viewReg s.cfg (k + i))).written = true) :
    (s.noteView k w).faultMark = s.faultMark.or (some (.unwrittenRead (viewReg s.cfg (k + j)))) := by
  induction w with
  | zero => exact absurd hj (Nat.not_lt_zero j)
  | succ w ih =>
    rw [State.noteView, State.noteRead]
    rcases Nat.lt_succ_iff_lt_or_eq.1 hj with hlt | rfl
    · cases hm : s.faultMark <;> simp [ih hlt, hm]
    · simp [noteView_of_written hw, hu]

/-- The parameters' side conditions, spelled out (00_scope.md R5, R7; log 8). -/
theorem config_facts {c : Config} (h : c.wf = true) :
    1 ≤ c.n ∧ 1 ≤ c.nreg ∧ c.nreg ≤ 16 ∧ 16 * c.n + 2 ≤ c.hinCap ∧ c.hinCap < 2 ^ 64 := by
  simp [Config.wf] at h
  omega

/-- The text in HOUT after a text command is the text it emitted (10_state.md R30). -/
theorem houtText_of_emits {text : List Byte} {s t : State} (h : EmitsText text s t)
    (hl : text.length < 2 ^ 64) : t.houtText = text := by
  have e : t.houtLen.toNat = text.length := by rw [h.length, BitVec.toNat_ofNat, Nat.mod_eq_of_lt hl]
  apply List.ext_getElem
  · simp [State.houtText, e]
  · intro i h1 h2
    have := h.bytes i h2
    simp [State.houtText, State.houtByteAt, e, h2, this]

theorem HoutHolds.of_keepsOutput {s t : State} {text : List Byte} (h : HoutHolds s text) (k : KeepsOutput s t) :
    HoutHolds t text :=
  ⟨by rw [k.1]; exact h.1, fun j hj => by rw [k.2]; exact h.2 j hj⟩

theorem outputCanonical_of_keepsOutput {s t : State} (h : OutputCanonical s) (k : KeepsOutput s t)
    (hc : t.cfg = s.cfg) : OutputCanonical t := by
  rcases h with h | ⟨v, hv, h | h⟩
  · exact .inl (by rw [k.1]; exact h)
  · exact .inr ⟨v, by rw [hc]; exact hv, .inl (by rw [hc]; exact HoutHolds.of_keepsOutput h k)⟩
  · exact .inr ⟨v, by rw [hc]; exact hv, .inr (by rw [hc]; exact HoutHolds.of_keepsOutput h k)⟩

/-- The invariant does not speak of STATUS, the marks, the counters or the host's fields. -/
theorem invariant_congr {s t : State} (h : Invariant s) (hc : t.cfg = s.cfg) (hr : t.regs = s.regs)
    (h1 : t.hinLen = s.hinLen) (h2 : t.hin = s.hin) (h3 : t.houtLen = s.houtLen) (h4 : t.hout = s.hout)
    (hd : t.delivery.length < 16) : Invariant t := by
  refine ⟨by rw [hc]; exact h.config, ?_, ?_, by rw [h1, hc]; exact h.hinLen, by rw [h2, hc]; exact h.hin,
    by rw [h4, hc]; exact h.hout, outputCanonical_of_keepsOutput h.output ⟨h3, by rw [h4]; exact fun _ => rfl⟩ hc, hd⟩
  · intro r
    have := h.limbs r
    unfold State.slot at *
    rw [hr, hc]
    exact this
  · intro r hn
    have := h.absent r (by rw [← hc]; exact hn)
    unfold State.slot at *
    rw [hr]
    exact this

end Sys2Proof.Laws
end

