-- ==== Sys2Proof/Laws/Text.lean ====
section
/-! SUPPORT. Hex numerals and digits (40_construction.md R84, R87; 43_serialization.md R140), and little-endian bytes
(20_memory.md R44). -/

namespace Sys2Proof.Laws

open Sys2Proof.Machine

theorem hexval_lt {b : Byte} (h : isHex b = true) : hexval b < 16 := by
  revert b; decide

/-- The parser reads back the digit the serializer writes. -/
theorem hexval_hexDigit : ∀ d, d < 16 → isHex (hexDigit d) = true ∧ hexval (hexDigit d) = d := by decide

theorem hexNumeral_append (a b : List Byte) : hexNumeral (a ++ b) = hexNumeral a * 16 ^ b.length + hexNumeral b := by
  unfold hexNumeral
  rw [List.foldl_append]
  generalize List.foldl (fun acc b => acc * 16 + hexval b) 0 a = x
  induction b generalizing x with
  | nil => simp
  | cons y ys ih =>
    simp only [List.foldl_cons, List.length_cons]
    rw [ih, ih (0 * 16 + hexval y), Nat.pow_succ]; ring

theorem hexNumeral_lt {t : List Byte} (h : ∀ b ∈ t, isHex b = true) : hexNumeral t < 16 ^ t.length := by
  induction t using List.reverseRecOn with
  | nil => simp [hexNumeral]
  | append_singleton t b ih =>
    rw [hexNumeral_append]
    have h1 := ih (fun c hc => h c (by simp [hc]))
    have h2 := hexval_lt (h b (by simp))
    simp only [List.length_append, List.length_cons, List.length_nil, Nat.zero_add, Nat.pow_succ, Nat.pow_zero, Nat.one_mul]
    have : hexNumeral [b] = hexval b := by simp [hexNumeral]
    omega

theorem leNat_lt (bs : List Byte) : leNat bs < 256 ^ bs.length := by
  induction bs with
  | nil => simp [leNat]
  | cons b bs ih =>
    have := b.isLt
    simp only [leNat, List.length_cons, Nat.pow_succ]; omega

/-- Byte `j` of the little-endian number is its base-256 digit `j`. -/
theorem leNat_digit (bs : List Byte) (j : Nat) (h : j < bs.length) : leNat bs / 256 ^ j % 256 = bs[j].toNat := by
  induction bs generalizing j with
  | nil => simp at h
  | cons b bs ih =>
    have hb := b.isLt
    cases j with
    | zero => simp [leNat]; omega
    | succ j =>
      rw [leNat, Nat.pow_succ, Nat.mul_comm (256 ^ j), ← Nat.div_div_eq_div_mul, Nat.add_mul_div_left _ _ (by decide),
        Nat.div_eq_of_lt hb, Nat.zero_add, ih j (by simpa using h)]
      simp

end Sys2Proof.Laws
end

