-- ==== Sys2Proof/Tests/Slice0.lean ====
section
/-! SUPPORT. Tests: ill-formed terms the checks refuse, words written out from the spec, one-step tests with the expected
values of spec/95_test_vectors.md, and for every obligation with hypotheses a state and operands that meet them. -/

namespace Sys2Proof.Tests

open Sys2Proof.Machine Sys2Proof.Safety

/-! ## Helpers -/

/-- F of 95_test_vectors.md: a limb of all ones. -/
def ones : Limb := 0xFFFFFFFFFFFFFFFF#64

/-- A small instance with N limbs, right after reset. -/
def start (n : Nat) (order : ParseErrorOrder := .lengthFirst) (nreg : Nat := 16) : State :=
  State.initial { n := n, nreg := nreg, hinCap := 16 * n + 32, order := order, hostMap := none }

/-- V0, V1, ... written with the given values. -/
def withValues (s : State) (vs : List Value) : State :=
  (vs.zipIdx.foldl fun t v => t.setReg (Fin.ofNat 16 v.2) v.1) s

/-- HIN holds the text and HIN_LEN its length. -/
def withText (s : State) (text : List Char) : State :=
  { s with
    hin := Memory.cells 0 (text.map fun c => BitVec.ofNat 8 c.toNat)
    hinLen := BitVec.ofNat 64 text.length }

/-- A view of the next state, if there is one. -/
def after {α : Type} (o : Host.Outcome State Fault Refusal) (f : State → α) : Option α :=
  match o with
  | .next t => some (f t)
  | .fault _ => none
  | .refused _ => none

/-- A register's content, `none` while it is unwritten, and the status code. -/
def reg (r : Reg) (t : State) : Option Value × StatusCode :=
  (if (t.slot r).written then some (t.slot r).limbs else none, t.status)

/-- The text in HOUT and its length. -/
def text (t : State) : List Char × Nat := (t.houtText.map fun b => Char.ofNat b.toNat, t.houtLen.toNat)

/-- The state after a run of the host's actions, if none stops. -/
def run (s : State) (actions : List HostAction) : Host.Outcome State Fault Refusal :=
  Host.Core.run core actions.length { s with pending := actions }

def isFault (o : Host.Outcome State Fault Refusal) : Option Fault :=
  match o with
  | .next _ => none
  | .fault f => some f
  | .refused _ => none

def isRefused (o : Host.Outcome State Fault Refusal) : Option Refusal :=
  match o with
  | .next _ => none
  | .fault _ => none
  | .refused r => some r

/-! ## WellFormed: an ill-formed term for each check (30_encoding.md R62, R67 d; 00_scope.md R5, R7) -/

theorem test_wf_accepts_the_last_register : (Instr.add 3 0 3).wellFormed 4 = true := by decide
theorem test_wf_refuses_rd : (Instr.add 4 0 1).wellFormed 4 = false := by decide
theorem test_wf_refuses_rs1 : (Instr.not 0 4).wellFormed 4 = false := by decide
theorem test_wf_refuses_rs2 : (Instr.add 3 0 15).wellFormed 4 = false := by decide
theorem test_wf_refuses_text_source : (Instr.tohex 4).wellFormed 4 = false := by decide
theorem test_config_default : Config.default.wf = true := by decide
theorem test_config_refuses_no_limbs : Config.wf { Config.default with n := 0 } = false := by decide
theorem test_config_refuses_no_registers : Config.wf { Config.default with nreg := 0 } = false := by decide
theorem test_config_refuses_17_registers : Config.wf { Config.default with nreg := 17 } = false := by decide
theorem test_config_refuses_small_hin : Config.wf { Config.default with hinCap := 1025 } = false := by decide
theorem test_config_refuses_wide_hin : Config.wf { Config.default with hinCap := 2 ^ 64 } = false := by decide
theorem test_step_refuses_ill_formed_config :
    isRefused (step { State.reset with cfg := { Config.default with n := 0 } }) = some .invalidConfiguration := by decide

/-! ## Decoding: words written out from 30_encoding.md R60, R66, R72 and the examples of the command rules -/

/-- The word decodes to the command and the command encodes to the word. -/
def readsAs (w : CmdWord) (i : Instr) : Bool :=
  (match decode 16 w with
    | .ok j => decide (j = i)
    | .error _ => false) && decide (encode i = w)

/-- The word is illegal at that NREG, for that reason. -/
def illegal (nreg : Nat) (w : CmdWord) (e : DecodeError) : Bool :=
  match decode nreg w with
  | .ok _ => false
  | .error f => decide (f = e)

theorem test_decode_zero : readsAs 0x00000000000000000000000000000301#128 (.zero 3) = true := by decide
theorem test_decode_one : readsAs 0x00000000000000000000000000000102#128 (.one 1) = true := by decide
theorem test_decode_fromnat : readsAs 0xffffffffffffffff0000000000000203#128 (.fromnat 2 ones) = true := by decide
theorem test_decode_max : readsAs 0x00000000000000000000000000000304#128 (.max 3) = true := by decide
theorem test_decode_fromhex : readsAs 0x00000000000000000000000000000105#128 (.fromhex 1) = true := by decide
theorem test_decode_add : readsAs 0x00000000000000000000000000010210#128 (.add 2 0 1) = true := by decide
theorem test_decode_sub : readsAs 0x00000000000000000000000000013411#128 (.sub 4 3 1) = true := by decide
theorem test_decode_mul : readsAs 0x00000000000000000000000000010212#128 (.mul 2 0 1) = true := by decide
theorem test_decode_and : readsAs 0x00000000000000000000000000032420#128 (.and 4 2 3) = true := by decide
theorem test_decode_or : readsAs 0x00000000000000000000000000010521#128 (.or 5 0 1) = true := by decide
theorem test_decode_xor : readsAs 0x00000000000000000000000000054622#128 (.xor 6 4 5) = true := by decide
theorem test_decode_not : readsAs 0x00000000000000000000000000001323#128 (.not 3 1) = true := by decide
theorem test_decode_shl : readsAs 0x00000000000000400000000000002324#128 (.shl 3 2 64) = true := by decide
theorem test_decode_shr : readsAs 0x00000000000000440000000000003425#128 (.shr 4 3 68) = true := by decide
theorem test_decode_tohex : readsAs 0x00000000000000000000000000003030#128 (.tohex 3) = true := by decide
theorem test_decode_display : readsAs 0x0000000000000000000000000000f031#128 (.display 15) = true := by decide

/-- 95_test_vectors.md L2-E2 to L2-E5, L2-E16: OP values outside the map; OP is checked first. -/
theorem test_illegal_op :
    illegal 16 0x00#128 .unknownOp ∧ illegal 16 0xff#128 .unknownOp ∧ illegal 16 0x13#128 .unknownOp ∧
    illegal 16 0x06#128 .unknownOp ∧ illegal 16 0x0f0f0f00#128 .unknownOp := by decide

/-- L2-E6, L2-E7, L2-E10 to L2-E12: an unused field is nonzero. -/
theorem test_illegal_unused_field :
    illegal 16 0x1301#128 .unusedFieldNonzero ∧ illegal 16 0x10003#128 .unusedFieldNonzero ∧
    illegal 16 0x00000000000000010000000000010210#128 .unusedFieldNonzero ∧
    illegal 16 0x130#128 .unusedFieldNonzero ∧ illegal 16 0x10123#128 .unusedFieldNonzero := by decide

/-- L2-E8, L2-E9: the two ends of RSV. -/
theorem test_illegal_rsv :
    illegal 16 0x00110210#128 .reservedNonzero ∧ illegal 16 0x8000000000010210#128 .reservedNonzero := by decide

/-- L2-E17 to L2-E19: NREG = 4. -/
theorem test_illegal_register :
    illegal 4 0x10410#128 .registerOutOfRange ∧ illegal 4 0xf0310#128 .registerOutOfRange ∧
    (match decode 4 0x3030#128 with
      | .ok i => decide (i = .tohex 3)
      | .error _ => false) = true := by decide

/-- 30_encoding.md R61: the delivery of `add v2, v0, v1`, byte 0 first; 15 bytes are no command. -/
theorem test_delivery_bytes :
    wordBytes 0x10210#128 = [0x10#8, 0x02#8, 0x01#8, 0, 0, 0, 0, 0, 0, 0, 0, 0, 0, 0, 0, 0] ∧
    (match decodeBytes 16 (wordBytes 0x10210#128) with
      | .ok i => decide (i = .add 2 0 1)
      | .error _ => false) = true ∧
    (match decodeBytes 16 ((wordBytes 0x10210#128).take 15) with
      | .ok _ => false
      | .error e => decide (e = .truncated)) = true := by decide

/-- The host's table reading and fetch: the row's match decodes, and the next step runs it. -/
theorem test_table_word : decodeTableWord 128 0x31 = some (.display 0) ∧ decodeTableWord 128 0x32 = none := by decide

/-! ## One step: construction (95_test_vectors.md section 3) -/

theorem test_zero : after (exec (.zero 3) (start 2)) (reg 3) = some (some [0, 0], .ok) := by decide
theorem test_one : after (exec (.one 1) (start 2)) (reg 1) = some (some [1, 0], .ok) := by decide
theorem test_one_single_limb : after (exec (.one 1) (start 1)) (reg 1) = some (some [1], .ok) := by decide
theorem test_fromnat : after (exec (.fromnat 0 ones) (start 2)) (reg 0) = some (some [ones, 0], .ok) := by decide
theorem test_max : after (exec (.max 0) (start 2)) (reg 0) = some (some [ones, ones], .ok) := by decide

/-! ## FROMHEX (section 4) -/

/-- FROMHEX of a text into V0 = [1, 0], N = 2. -/
def parsed (order : ParseErrorOrder) (t : List Char) : Option (Option Value × StatusCode) :=
  after (exec (.fromhex 0) (withValues (withText (start 2 order) t) [[1, 0]])) (reg 0)

/-- L2-P8, L2-P27: mixed case, a prefix and a short text. -/
theorem test_fromhex_value :
    parsed .lengthFirst "aBcD".toList = some (some [0xabcd, 0], .ok) ∧
    parsed .lengthFirst "0x123456abcdef".toList = some (some [0x123456abcdef, 0], .ok) := by decide

/-- L2-P1, L2-P3, L2-P7, L2-P10: empty texts, a second prefix and a sign. -/
theorem test_fromhex_edges :
    parsed .chunkwise [] = some (some [0, 0], .ok) ∧ parsed .lengthFirst "0X".toList = some (some [0, 0], .ok) ∧
    parsed .lengthFirst "0x0x1".toList = some (some [1, 0], .invalidHexDigit) ∧
    parsed .lengthFirst "+1".toList = some (some [1, 0], .invalidHexDigit) := by decide

/-- L2-P19: 17 digits cross into limb 1. -/
theorem test_fromhex_second_chunk :
    parseHex 2 .lengthFirst (0x31#8 :: List.replicate 16 0x30#8) = .ok [0, 1] := by decide

/-- L2-P20: 33 digits, though the value fits. -/
theorem test_fromhex_leading_zero_counts :
    parseHex 2 .chunkwise (0x30#8 :: List.replicate 32 0x31#8) = .error .tooManyLimbs := by decide

/-- L2-P22: long, the bad byte in chunk 2. -/
theorem test_fromhex_orders_high :
    parseHex 2 .lengthFirst (0x47#8 :: List.replicate 32 0x31#8) = .error .tooManyLimbs ∧
    parseHex 2 .digitsFirst (0x47#8 :: List.replicate 32 0x31#8) = .error .invalidHexDigit ∧
    parseHex 2 .chunkwise (0x47#8 :: List.replicate 32 0x31#8) = .error .tooManyLimbs := by decide

/-- L2-P23: long, the bad byte inside the rightmost 32. -/
theorem test_fromhex_orders_low :
    parseHex 2 .lengthFirst (List.replicate 16 0x31#8 ++ [0x47#8] ++ List.replicate 16 0x31#8) = .error .tooManyLimbs ∧
    parseHex 2 .digitsFirst (List.replicate 16 0x31#8 ++ [0x47#8] ++ List.replicate 16 0x31#8) =
      .error .invalidHexDigit ∧
    parseHex 2 .chunkwise (List.replicate 16 0x31#8 ++ [0x47#8] ++ List.replicate 16 0x31#8) =
      .error .invalidHexDigit := by decide

/-! ## Arithmetic (sections 5 and 6) -/

/-- The command on V0 = a, V1 = b of the width of `a`, its result in V2. -/
def onTwo (i : Instr) (a b : Value) : Option (Option Value × StatusCode) :=
  after (exec i (withValues (start a.length) [a, b])) (reg 2)

/-- L2-A2, L2-A8: a carry through both limbs; both overflow checks. -/
theorem test_add :
    onTwo (.add 2 0 1) [ones, ones] [1, 0] = some (some [0, 0], .ok) ∧
    onTwo (.add 2 0 1) [ones, 1] [1, ones] = some (some [0, 1], .ok) := by decide

/-- Section 5, in place: V1 = [F, 0] doubled. -/
theorem test_add_in_place :
    after (exec (.add 1 1 1) (withValues (start 2) [[0, 0], [ones, 0]])) (reg 1) =
      some (some [0xfffffffffffffffe, 1], .ok) := by decide

/-- L2-S2, L2-S5: a borrow across the boundary; the order of the operands. -/
theorem test_sub :
    onTwo (.sub 2 0 1) [0, 1] [1, 0] = some (some [ones, 0], .ok) ∧
    onTwo (.sub 2 0 1) [1, 2] [3, 4] = some (some [0xfffffffffffffffe, 0xfffffffffffffffd], .ok) := by decide

/-- L2-A13: three limbs. -/
theorem test_sub_three_limbs :
    onTwo (.sub 2 0 1) [ones, ones, 0] [1, 0, 0] = some (some [0xfffffffffffffffe, ones, 0], .ok) := by decide

/-- L2-M5, L2-M11: the full product; truncated cross products. -/
theorem test_mul :
    onTwo (.mul 2 0 1) [ones, 0] [ones, 0] = some (some [1, 0xfffffffffffffffe], .ok) ∧
    onTwo (.mul 2 0 1) [5, 7] [11, 13] = some (some [0x37, 0x8e], .ok) := by decide

/-- L2-M16: (-1)·(-1) on three limbs, by the value law and by the limb-parallel multiplier. -/
theorem test_mul_three_limbs :
    mulN 3 [ones, ones, ones] [ones, ones, ones] = [1, 0, 0] ∧
    mulLimbParallel 3 [ones, ones, ones] [ones, ones, ones] = [1, 0, 0] := by decide

/-! ## Bitwise logic and shifts (sections 7 and 8) -/

/-- a and b of 42_bitwise_shift.md. -/
def va : Value := [0xF0F0F0F0F0F0F0F0, 0x00FF00FF00FF00FF]
def vb : Value := [0xFF00FF00FF00FF00, 0x0F0F0F0F0F0F0F0F]

theorem test_and : onTwo (.and 2 0 1) va vb = some (some [0xF000F000F000F000, 0x000F000F000F000F], .ok) := by decide
theorem test_or : onTwo (.or 2 0 1) va vb = some (some [0xFFF0FFF0FFF0FFF0, 0x0FFF0FFF0FFF0FFF], .ok) := by decide
theorem test_xor : onTwo (.xor 2 0 1) va vb = some (some [0x0FF00FF00FF00FF0, 0x0FF00FF00FF00FF0], .ok) := by decide
theorem test_not : onTwo (.not 2 1) va vb = some (some [0x00FF00FF00FF00FF, 0xF0F0F0F0F0F0F0F0], .ok) := by decide

/-- R123: a small value sets every high limb. -/
theorem test_not_high_limbs : onTwo (.not 2 0) [5, 0] vb = some (some [0xFFFFFFFFFFFFFFFA, ones], .ok) := by decide

/-- L2-H5, L2-H6: 63 and 64. -/
theorem test_shl :
    onTwo (.shl 2 0 63) [0x8000000000000001, 1] [] =
      some (some [0x8000000000000000, 0xC000000000000000], .ok) ∧
    onTwo (.shl 2 0 64) [0x8000000000000001, 1] [] = some (some [0, 0x8000000000000001], .ok) := by decide

/-- L2-H11, L2-H20: the largest amount; three limbs by 100. -/
theorem test_shl_wide :
    onTwo (.shl 2 0 ones) [0x8000000000000001, 1] [] = some (some [0, 0], .ok) ∧
    onTwo (.shl 2 0 100) [1, 2, 0x8000000000000000] [] =
      some (some [0, 0x0000001000000000, 0x0000002000000000], .ok) := by decide

/-- L2-H2, L2-H6: 1 and 64. -/
theorem test_shr :
    onTwo (.shr 2 0 1) [0x8000000000000001, 1] [] = some (some [0xC000000000000000, 0], .ok) ∧
    onTwo (.shr 2 0 64) [0x8000000000000001, 1] [] = some (some [1, 0], .ok) := by decide

/-- L2-H20, L2-H24: three limbs by 100 and by 2^63. -/
theorem test_shr_wide :
    onTwo (.shr 2 0 100) [1, 2, 0x8000000000000000] [] = some (some [0, 0x0000000008000000, 0], .ok) ∧
    onTwo (.shr 2 0 0x8000000000000000) [1, 2, 0x8000000000000000] [] = some (some [0, 0, 0], .ok) := by decide

/-! ## Serialization and the byte view (section 9) -/

/-- L2-X6: N = 1. -/
theorem test_tohex :
    after (exec (.tohex 0) (withValues (start 1) [[0x2a]])) text = some ("000000000000002a".toList, 16) := by decide

/-- L2-X4: two limbs, most significant first. -/
theorem test_hex_limb_order :
    hexN 2 [0x0123456789abcdef, 0xfedcba9876543210] =
      "fedcba98765432100123456789abcdef".toList.map fun c => BitVec.ofNat 8 c.toNat := by decide

/-- L2-X6: the prefix on DISPLAY only. -/
theorem test_display :
    after (exec (.display 0) (withValues (start 1) [[0x2a]])) text = some ("0x000000000000002a".toList, 18) := by decide

/-- Section 9: TOHEX after DISPLAY leaves the last two bytes of HOUT as they were. -/
theorem test_tohex_leaves_the_rest :
    after (exec (.tohex 0) { withValues (start 1) [[ones]] with hout := Memory.cells 0 (displayN 1 [0]), houtLen := 18 })
      (fun t => (t.hout.read 15, t.hout.read 16, t.hout.read 17)) = some (some 0x66, some 0x30, some 0x30) := by decide

/-- Section 9: a 4-byte read at VVIEW index 0 and one at the last four bytes of V0's view, N = 2. -/
theorem test_vview :
    after (perform (.readBytes .vview 0 4) (withValues (start 2) [[0x0123456789abcdef, 0xfedcba9876543210]]))
      (fun t => t.returned) = some ⟨4, 0x89abcdef⟩ ∧
    after (perform (.readBytes .vview 12 4) (withValues (start 2) [[0x0123456789abcdef, 0xfedcba9876543210]]))
      (fun t => t.returned) = some ⟨4, 0xfedcba98⟩ := by decide

/-! ## Status, marks, host actions and the assembler -/

/-- Section 2: an illegal word that names an unwritten register sets STATUS = 3 and marks nothing. -/
theorem test_illegal_effect :
    after (run (start 2) [.writeCmd 0x1301#128]) (fun t => (t.statusByte, t.faultMark, t.ci)) =
      some (0x03#8, none, 1) := by decide

/-- L3-6: ADD straight after reset reads unwritten registers; the mark names V0, or V1 where V0 is written. -/
theorem test_unwritten_mark :
    after (exec (.add 2 0 1) (start 2)) (fun t => t.faultMark) = some (some (.unwrittenRead 0)) ∧
    after (exec (.add 2 0 1) (withValues (start 2) [[1, 0]])) (fun t => t.faultMark) =
      some (some (.unwrittenRead 1)) := by decide

/-- 43_serialization.md R142: with RS1 unwritten, HOUT and HOUT_LEN are unchanged. -/
theorem test_unwritten_source_leaves_hout :
    after (exec (.tohex 7) { start 1 with hout := Memory.cells 0 (displayN 1 [5]), houtLen := 18 })
      (fun t => (t.houtLen, decide (t.hout = Memory.cells 0 (displayN 1 [5])), t.faultMark)) =
      some (18, true, some (.unwrittenRead 7)) := by decide

/-- 70_reset_and_hazards.md R180, 60_exceptions.md R173: a refused reset sets the refusal mark, under it a CMD write has no
meaning, and the next reset clears it. -/
theorem test_refusal_mark :
    after (run (start 1) [.duringCommand 0x301#128 .reset]) (fun t => t.refusalMark) =
      some (some .resetDuringCommand) ∧
    isRefused (run (start 1) [.duringCommand 0x301#128 .reset, .writeCmd 0x301#128]) =
      some (.underRefusalMark .resetDuringCommand) ∧
    after (run (start 1) [.duringCommand 0x301#128 .reset, .reset, .writeCmd 0x301#128])
      (fun t => (t.refusalMark, reg 3 t)) = some (none, (some [0], .ok)) := by decide

/-- L3-3, its FROMHEX error in lines as the assembler reads them: V0 keeps [1, 0] and STATUS reads 1. -/
theorem test_assembled_error :
    ((["one v0", ".hin \"12G4\" ; bad digit", "fromhex v0", ".expect_status 1"].mapM fun l => assembleLine l.toList).bind
      fun as => after (run (start 2) as.flatten) fun t => (reg 0 t, t.returned)) =
      some ((some [1, 0], .invalidHexDigit), ⟨1, 1⟩) := by decide

/-- 30_encoding.md R72, R73: the examples, a pseudo-instruction, a comment and an immediate out of range. -/
theorem test_assembler :
    assembleLine "add v2, v0, v1".toList = some [.writeCmd 0x10210#128] ∧
    assembleLine "  sqr v2, v0 ; square".toList = some [.writeCmd 0x00212#128] ∧
    assembleLine "; only a comment".toList = some [] ∧
    assembleLine "fromnat v0, 18446744073709551616".toList = none ∧
    assembleLine "add v2, v0".toList = none ∧
    assembleLine [ '.', 'h', 'i', 'n', ' ', quoteChar, Char.ofNat 0xe9, quoteChar] = none ∧
    disassemble (.shl 1 0 64) = "shl v1, v0, 64".toList := by decide

/-! ## Witnesses: for every obligation with hypotheses, a state and operands that meet them together -/

/-- N = 1, V0 = [5], V1 = [3], V2 unwritten. -/
def small : State := withValues (start 1) [[5], [3]]

/-- `small` after TOHEX of V0: HOUT_LEN = 16·N. -/
def smallHex : State := { small with hout := Memory.cells 0 (hexN 1 [5]), houtLen := 16 }

/-- `small` after DISPLAY of V0: HOUT_LEN = 16·N + 2. -/
def smallDisplay : State := { small with hout := Memory.cells 0 (displayN 1 [5]), houtLen := 18 }

/-- A state with one host action pending. -/
def pendingOne (a : HostAction) : State := { small with pending := [a] }

theorem test_witness_invariant : Invariant small :=
  ⟨by decide, by decide, by decide, by decide, by decide, by decide, .inl (by decide), by decide⟩

/-- At HOUT_LEN = 16·N. -/
theorem test_witness_invariant_hex : Invariant smallHex :=
  ⟨by decide, by decide, by decide, by decide, by decide, by decide,
    .inr ⟨[5], by decide, .inl ⟨by decide, by decide⟩⟩, by decide⟩

/-- At HOUT_LEN = 16·N + 2. -/
theorem test_witness_invariant_display : Invariant smallDisplay :=
  ⟨by decide, by decide, by decide, by decide, by decide, by decide,
    .inr ⟨[5], by decide, .inr ⟨by decide, by decide⟩⟩, by decide⟩

/-- DecodeOfEncodeIsTheCommand, at the last register of NREG = 4 and of NREG = 16. -/
theorem test_witness_DecodeOfEncodeIsTheCommand :
    (Instr.add 3 0 3).wellFormed 4 = true ∧ (Instr.shl 15 15 ones).wellFormed 16 = true := by decide

/-- EncodeOfDecodeIsTheWord; LegalWordsAreTheTablesWords, its second clause. -/
theorem test_witness_EncodeOfDecodeIsTheWord : decode 4 0x10310#128 = .ok (.add 3 0 1) := rfl

theorem test_witness_NoWordHitsTwoRows :
    ∃ p ∈ opcodeTable, p.hits 0xf031#128 = true ∧ p.mnemonic = "DISPLAY" := by decide

theorem test_witness_StepRunsTheDecodedCommand :
    ∃ s : State, s.cfg.wf = true ∧ s.refusalMark = none ∧ s.pending = .writeCmd 0x10210#128 :: [] ∧ s.delivery = [] ∧
      decode s.cfg.nreg 0x10210#128 = .ok (.add 2 0 1) :=
  ⟨pendingOne (.writeCmd 0x10210#128), by decide, rfl, rfl, rfl, rfl⟩

/-- StepRunsTheDecodedCommand, its first clause: a pending reset and a pending read are performed. -/
theorem test_witness_StepRunsTheDecodedCommand_action :
    small.cfg.wf = true ∧ after (step (pendingOne .reset)) (fun t => (reg 0 t, t.pending)) = some ((none, .ok), []) ∧
    after (step (pendingOne (.readBytes .vview 0 1))) (fun t => (t.returned, t.pending)) = some (⟨1, 5⟩, []) := by decide

theorem test_witness_IllegalWordWritesOnlyStatus :
    ∃ s : State, s.cfg.wf = true ∧ s.refusalMark = none ∧ s.pending = .writeCmd 0x06#128 :: [] ∧ s.delivery = [] ∧
      decode s.cfg.nreg 0x06#128 = .error .unknownOp :=
  ⟨pendingOne (.writeCmd 0x06#128), by decide, rfl, rfl, rfl, rfl⟩

theorem test_witness_ByteDeliveryRunsTheWord :
    small.cfg.wf = true ∧ small.refusalMark = none ∧ small.delivery = [] := by decide

theorem test_witness_IdleBlockHoldsItsState : small.cfg.wf = true ∧ small.pending = [] := by decide

/-- Both values of the condition: a whole word counts, the first byte of a delivery does not, the last one does. -/
theorem test_witness_CommandIndexCountsCommands :
    after (step (pendingOne (.writeCmd 0x10210#128))) (fun t => t.ci) = some 1 ∧
    after (step (pendingOne (.writeCmdByte 0x10#8))) (fun t => t.ci) = some 0 ∧
    after (step { pendingOne (.writeCmdByte 0#8) with delivery := (wordBytes 0x10210#128).take 15 })
      (fun t => (t.ci, reg 2 t)) = some (1, (some [8], .ok)) := by decide

/-- FromhexWritesTheParseOrReportsItsError, both clauses; ParsedValueIsTheHexNumeral. -/
theorem test_witness_FromhexWritesTheParseOrReportsItsError :
    parseHex 1 .lengthFirst (withText (start 1) "0xFf".toList).hinText = .ok [255] ∧
    parseHex 1 .lengthFirst (withText (start 1) "12G4".toList).hinText = .error .invalidHexDigit := by decide

/-- HexTextIsReadByTheAsciiCodes: the ends of the three ranges, and the bytes beside them. -/
theorem test_witness_HexTextIsReadByTheAsciiCodes_digits :
    ([0x30#8, 0x39#8, 0x41#8, 0x46#8, 0x61#8, 0x66#8].map fun b => (isHex b, hexval b)) =
      [(true, 0), (true, 9), (true, 10), (true, 15), (true, 10), (true, 15)] ∧
    ([0x2f#8, 0x3a#8, 0x40#8, 0x47#8, 0x60#8, 0x67#8, 0x80#8, 0xff#8].map isHex) = List.replicate 8 false := by decide

/-- HexTextIsReadByTheAsciiCodes: both prefixes, and texts that have none. -/
theorem test_witness_HexTextIsReadByTheAsciiCodes_prefix :
    stripHexPrefix [0x30#8, 0x78#8, 0x31#8] = [0x31#8] ∧ stripHexPrefix [0x30#8, 0x58#8] = [] ∧
    stripHexPrefix [0x30#8] = [0x30#8] ∧ stripHexPrefix [0x78#8, 0x31#8] = [0x78#8, 0x31#8] := by decide

/-- ParseErrorsFollowTheOrder: exactly 16·N characters and one more, N = 1. -/
theorem test_witness_ParseErrorsFollowTheOrder :
    parseHex 1 .lengthFirst (List.replicate 16 0x66#8) = .ok [ones] ∧
    parseHex 1 .lengthFirst (List.replicate 17 0x30#8) = .error .tooManyLimbs ∧
    parseHex 1 .chunkwise (0x47#8 :: List.replicate 15 0x30#8) = .error .invalidHexDigit := by decide

/-- OrdersAgreeUnlessLongAndInvalid: a text that is only long and one that is only invalid. -/
theorem test_witness_OrdersAgreeUnlessLongAndInvalid :
    ¬ (16 * 1 < (stripHexPrefix (List.replicate 17 0x30#8)).length ∧
      ∃ b ∈ stripHexPrefix (List.replicate 17 0x30#8), isHex b = false) ∧
    ¬ (16 * 1 < (stripHexPrefix [0x47#8]).length ∧ ∃ b ∈ stripHexPrefix [0x47#8], isHex b = false) := by decide

/-- AddWritesTheWrappedSum, SubWritesTheWrappedDifference, MulWritesTheLowProduct, BitwiseLogicActsOnEveryLimb,
ShlShiftsLeftByAnyAmount, ShrShiftsRightByAnyAmount, InPlaceCommandsUseTheOldValue, PseudoInstructionsAreExact,
TohexEmitsTheCanonicalHex, DisplayEmitsThePrefixedHex: the invariant and the written sources. -/
theorem test_witness_sources_written :
    Invariant small ∧ (small.slot 0).written = true ∧
      ∀ i ∈ [Instr.add 2 0 1, .sub 2 0 1, .mul 2 0 1, .and 2 0 1, .or 2 0 1, .xor 2 0 1, .not 2 0, .shl 2 0 64,
        .shr 2 0 64, .tohex 1, .display 1], SourcesWritten i small :=
  ⟨test_witness_invariant, by decide, by unfold SourcesWritten; decide⟩

/-- AdderRipplesTheCarry, SubtractorRipplesTheBorrow, the multipliers, ArithmeticObeysTheRingLaws, BitwiseLawsHold (its
last clause), CanonicalHexIsTheNumbersDigits (its last clause), CanonicalTextsParseBack: values of N limbs. -/
theorem test_witness_lengths :
    ∃ a b c : Value, a.length = 2 ∧ b.length = 2 ∧ c.length = 2 ∧ 1 ≤ 2 ∧ a ≠ b :=
  ⟨va, vb, [0, 0], by decide⟩

/-- CanonicalHexIsTheNumbersDigits, its digit bytes at the ends of both ranges (43_serialization.md R140). -/
theorem test_witness_CanonicalHexIsTheNumbersDigits_digits :
    ([0, 9, 10, 15].map hexDigit) = [0x30#8, 0x39#8, 0x61#8, 0x66#8] := by decide

/-- ShiftIdentities: N = 1 and N = 2, and a value on each side of the last clause. -/
theorem test_witness_ShiftIdentities :
    1 ≤ 1 ∧ ([5] : Value).length = 1 ∧ 2 ≤ 2 ∧ va.length = 2 ∧
    val [0x123456abcdef000, 0] * 2 ^ 64 < 2 ^ (64 * 2) ∧ ¬ val [0, 1] * 2 ^ 64 < 2 ^ (64 * 2) := by decide

/-- TextRoundTripOnTheMachine, by TOHEX and by DISPLAY: HIN of a second state holds the bytes of HOUT. -/
theorem test_witness_TextRoundTripOnTheMachine :
    ∃ t t' u u' : State, Invariant small ∧ (small.slot 0).written = true ∧
      exec (.tohex 0) small = .next t ∧ exec (.display 0) small = .next t' ∧ u.cfg = small.cfg ∧
      u.hinText = t.houtText ∧ u'.cfg = small.cfg ∧ u'.hinText = t'.houtText :=
  ⟨_, _, { small with hin := Memory.cells 0 (hexN 1 [5]), hinLen := 16 },
    { small with hin := Memory.cells 0 (displayN 1 [5]), hinLen := 18 }, test_witness_invariant, by decide, rfl, rfl,
    rfl, by decide, rfl, by decide⟩

/-- OnlyTheDestinationChanges: with and without a destination. -/
theorem test_witness_OnlyTheDestinationChanges :
    ∃ t t' : State, exec (.add 2 0 1) small = .next t ∧ (Instr.add 2 0 1).dest ≠ some 0 ∧
      exec (.tohex 0) small = .next t' ∧ (Instr.tohex 0).dest ≠ some 0 :=
  ⟨_, _, rfl, by decide, rfl, by decide⟩

/-- NoCommandWritesTheInput: a command that completes. -/
theorem test_witness_a_command_completes : ∃ t, exec (.mul 2 0 1) small = .next t := ⟨_, rfl⟩

/-- StatusReportsTheCommand, each clause from STATUS = ILLEGAL_COMMAND: both parse errors, a FROMHEX that parses and
another command. -/
theorem test_witness_StatusReportsTheCommand :
    after (exec (.fromhex 0) ((withText small "G".toList).setStatus .illegalCommand)) (fun t => t.statusByte) =
      some 0x01#8 ∧
    after (exec (.fromhex 0) ((withText small (List.replicate 17 '0')).setStatus .illegalCommand))
      (fun t => t.statusByte) = some 0x02#8 ∧
    after (exec (.fromhex 0) ((withText small "f".toList).setStatus .illegalCommand)) (fun t => t.statusByte) =
      some 0x00#8 ∧
    after (exec (.mul 2 0 1) (small.setStatus .illegalCommand)) (fun t => t.statusByte) = some 0x00#8 ∧
    SourcesWritten (.mul 2 0 1) (small.setStatus .illegalCommand) ∧
    (small.setStatus .illegalCommand).statusByte = 0x03#8 := by unfold SourcesWritten; decide

theorem test_witness_OnlyTextCommandsWriteTheOutput :
    ∃ t, exec (.zero 2) smallHex = .next t ∧ ∀ r, Instr.zero 2 ≠ .tohex r ∧ Instr.zero 2 ≠ .display r :=
  ⟨_, rfl, by decide⟩

/-- ResultDependsOnTheOperandsOnly: two states with the sources alike and V2, STATUS and HOUT not, for a command with a
destination, one without, and FROMHEX. -/
theorem test_witness_ResultDependsOnTheOperandsOnly :
    ∃ u s' u' x y f g : State, small.cfg = u.cfg ∧ small.value 0 = u.value 0 ∧ small.value 1 = u.value 1 ∧
      SourcesWritten (.add 2 0 1) small ∧ SourcesWritten (.add 2 0 1) u ∧
      small.hinText = u.hinText ∧ small.slot 2 ≠ u.slot 2 ∧ small.status ≠ u.status ∧
      exec (.add 2 0 1) small = .next s' ∧ exec (.add 2 0 1) u = .next u' ∧
      exec (.tohex 0) small = .next x ∧ exec (.tohex 0) u = .next y ∧
      exec (.fromhex 2) small = .next f ∧ exec (.fromhex 2) u = .next g ∧ f.status = .ok :=
  ⟨(smallDisplay.setReg 2 [9]).setStatus .illegalCommand, _, _, _, _, _, _, by decide, by decide, by decide,
    by unfold SourcesWritten; decide, by unfold SourcesWritten; decide, by decide, by decide, by decide,
    rfl, rfl, rfl, rfl, rfl, rfl, rfl⟩

/-- UnwrittenSourceIsMarked, each clause: an unwritten source with no mark and with a mark already set, and sources
written. -/
theorem test_witness_UnwrittenSourceIsMarked :
    small.firstUnwritten (Instr.add 2 0 7).sources = some 7 ∧ small.faultMark = none ∧
    State.firstUnwritten { small with faultMark := some (.unwrittenRead 3) } (Instr.tohex 7).sources = some 7 ∧
    SourcesWritten (.add 2 0 1) small := by unfold SourcesWritten; decide

/-- ReadsHaveNoSideEffect, its second clause at the boundary of V1 and V2 (N = 1: bytes 8 to 15 are V1's, V2 is
unwritten): written bytes only, the first unwritten byte, and a read that starts in a written register. -/
theorem test_witness_ReadsHaveNoSideEffect_mark :
    after (step (pendingOne (.readBytes .vview 8 8))) (fun t => t.faultMark) = some none ∧
    after (step (pendingOne (.readBytes .vview 16 1))) (fun t => t.faultMark) = some (some (.unwrittenRead 2)) ∧
    after (step (pendingOne (.readBytes .vview 15 12))) (fun t => t.faultMark) = some (some (.unwrittenRead 2)) ∧
    (viewReg small.cfg 15, viewReg small.cfg 16) = (1, 2) := by decide

/-- ReadsHaveNoSideEffect, its first clause: a read of VVIEW, twice. -/
theorem test_witness_ReadsHaveNoSideEffect :
    ∃ t u : State, IsRead (.readBytes .vview 0 8) ∧
      step { small with pending := [.readBytes .vview 0 8, .readBytes .vview 0 8] } = .next t ∧ step t = .next u ∧
      u.returned = ⟨8, 5⟩ :=
  ⟨_, _, trivial, rfl, rfl, by decide⟩

/-- ViewIsLimbMajorLittleEndian: the last byte of the last limb. -/
theorem test_witness_ViewIsLimbMajorLittleEndian :
    1 < (start 2).cfg.n ∧ 7 < 8 ∧ (withValues (start 2) [[0, 0xfedcba9876543210]]).vviewByte 15 = 0xfe#8 := by decide

/-- HostReadsComposeLittleEndian: reads that end exactly at the end of each space (N = 1, NREG = 16, HIN_CAP = 48), and
the three registers. -/
theorem test_witness_HostReadsComposeLittleEndian :
    small.refusalMark = none ∧ small.delivery = [] ∧ 40 + 8 ≤ small.cfg.hinCap ∧ 16 + 2 ≤ 16 * small.cfg.n + 2 ∧
    127 + 1 ≤ small.cfg.nreg * 8 * small.cfg.n ∧
    after (perform (.readBytes .hout 14 4) smallDisplay) (fun t => t.returned) = some ⟨4, 0x35303030⟩ ∧
    after (perform .readStatus (small.setStatus .illegalCommand)) (fun t => t.returned) = some ⟨1, 3⟩ ∧
    after (perform .readHinLen (withText small "0x1".toList)) (fun t => t.returned) = some ⟨8, 3⟩ ∧
    after (perform .readHoutLen smallDisplay) (fun t => t.returned) = some ⟨8, 18⟩ := by decide

/-- HostWritesStoreOnly, both clauses at HIN_CAP = 48. -/
theorem test_witness_HostWritesStoreOnly :
    small.refusalMark = none ∧ small.delivery = [] ∧ 46 + [0x30#8, 0x31#8].length ≤ small.cfg.hinCap ∧
      (48#64).toNat ≤ small.cfg.hinCap := by decide

theorem test_witness_HinDirectiveLoadsTheText :
    ∃ s : State, s.cfg.wf = true ∧ s.refusalMark = none ∧ s.delivery = [] ∧ [0x31#8].length ≤ s.cfg.hinCap ∧
      s.pending = (SourceLine.hin [0x31#8]).actions ++ [.readStatus] :=
  ⟨{ small with pending := (SourceLine.hin [0x31#8]).actions ++ [.readStatus] }, by decide, by decide, by decide,
    by decide, by decide⟩

/-- BrokenDutiesHaveNoMove: each clause with no delivery at the first value past its bound. -/
theorem test_witness_BrokenDutiesHaveNoMove :
    isFault (step (pendingOne (.writeHinLen 49))) = some (.hinLenAboveCap 49) ∧
    isFault (step (pendingOne (.writeHin 48 [0x30#8]))) = some (.pastEndOfSpace .hin 48 1) ∧
    isFault (step (pendingOne (.readBytes .hin 41 8))) = some (.pastEndOfSpace .hin 41 8) ∧
    isFault (step (pendingOne (.readBytes .hout 18 1))) = some (.pastEndOfSpace .hout 18 1) ∧
    isFault (step (pendingOne (.readBytes .vview 121 8))) = some (.pastEndOfSpace .vview 121 8) ∧
    isFault (step (pendingOne (.writeReadOnly .status))) = some (.writeToReadOnlyPort .status) ∧
    isFault (step (pendingOne .readCmd)) = some .readOfCmd ∧
    isFault (step (pendingOne (.duringCommand 0x10210#128 .access))) = some .accessDuringCommand := by decide

/-- BrokenDutiesHaveNoMove: a read and two writes while a command's bytes are being delivered. -/
theorem test_witness_BrokenDutiesHaveNoMove_delivery :
    isFault (step { pendingOne .readStatus with delivery := [0x10#8] }) = some .accessDuringCommand ∧
    isFault (step { pendingOne (.writeHinLen 0) with delivery := [0x10#8] }) = some .accessDuringCommand ∧
    isFault (step { pendingOne (.writeCmd 0x10210#128) with delivery := [0x10#8] }) = some .accessDuringCommand ∧
    IsAccess .readStatus ∧ IsAccess (.writeHinLen 0) ∧ IsAccess (.writeCmd 0x10210#128) :=
  ⟨by decide, by decide, by decide, trivial, trivial, trivial⟩

/-- ResetDuringCommandIsRefused, each clause. -/
theorem test_witness_ResetDuringCommandIsRefused :
    small.refusalMark = none ∧
    after (step (pendingOne (.duringCommand 0x10210#128 .reset))) (fun t => t.refusalMark) =
      some (some .resetDuringCommand) ∧
    after (step { pendingOne .reset with delivery := [0x10#8] }) (fun t => t.refusalMark) =
      some (some .resetDuringCommand) ∧
    after (step (pendingOne (.suppressedHex 0))) (fun t => t.refusalMark) = some (some .suppressedRendering) ∧
    isRefused (step { pendingOne .readStatus with refusalMark := some .suppressedRendering }) =
      some (.underRefusalMark .suppressedRendering) := by decide

/-- ResetClearsTheBlock, on a state with registers, both marks and an output to clear. -/
theorem test_witness_ResetClearsTheBlock :
    smallHex.delivery = [] ∧
    after (perform .reset { smallHex with faultMark := some (.unwrittenRead 3), ci := 7 })
      (fun t => (reg 0 t, t.houtLen, t.faultMark, t.ci)) = some ((none, .ok), 0, none, 7) ∧
    after (perform .reset { smallHex with refusalMark := some .suppressedRendering }) (fun t => (t.refusalMark, t.status)) =
      some (none, .ok) := by decide

/-- ResetMeetsTheInvariant: the smallest instance. -/
theorem test_witness_ResetMeetsTheInvariant :
    Config.wf { n := 1, nreg := 1, hinCap := 18, order := .chunkwise, hostMap := none } = true := by decide

/-- StepKeepsTheInvariant, StepKeepsTheParameters: a state that meets the invariant and steps. -/
theorem test_witness_StepKeepsTheInvariant :
    ∃ s t : State, Invariant s ∧ step s = .next t ∧ s.slot 2 ≠ t.slot 2 :=
  ⟨pendingOne (.writeCmd 0x10210#128), _,
    ⟨by decide, by decide, by decide, by decide, by decide, by decide, .inl (by decide), by decide⟩, rfl, by decide⟩

/-- RegistersChangeOnlyByCommands: the third byte of a delivery changes nothing, though the bytes so far would decode. -/
theorem test_third_byte_runs_nothing :
    after (step { pendingOne (.writeCmdByte 0x01#8) with delivery := [0x10#8, 0x02#8] }) (fun t => (reg 2 t, t.ci)) =
      some ((none, .ok), 0) := by decide

/-- RegistersChangeOnlyByCommands: a register changed by a command, by the last byte of a delivery and by a reset. -/
theorem test_witness_RegistersChangeOnlyByCommands :
    (∃ t, step (pendingOne (.writeCmd 0x10210#128)) = .next t ∧ t.slot 2 ≠ (pendingOne (.writeCmd 0x10210#128)).slot 2) ∧
    (∃ t, step { pendingOne (.writeCmdByte 0#8) with delivery := (wordBytes 0x10210#128).take 15 } = .next t ∧
      t.slot 2 ≠ small.slot 2) ∧
    (∃ t, step (pendingOne .reset) = .next t ∧ t.slot 0 ≠ (pendingOne .reset).slot 0) :=
  ⟨⟨_, rfl, by decide⟩, ⟨_, rfl, by decide⟩, ⟨_, rfl, by decide⟩⟩

/-- OutputIsLowerCaseHex: the `x` of the prefix and a digit above it. -/
theorem test_witness_OutputIsLowerCaseHex :
    Invariant smallDisplay ∧ smallDisplay.houtByteAt 1 = 0x78#8 ∧ smallDisplay.houtByteAt 17 = hexDigit 5 :=
  ⟨test_witness_invariant_display, by decide, by decide⟩

end Sys2Proof.Tests
end

section
/-! SUPPORT. What one step can do, said once per operation of the ports (10_state.md R33, 60_exceptions.md R174): if the
operation answers a next state, then one of the listed cases holds. -/

namespace Sys2Proof.Proofs

open Sys2Proof.Machine Sys2Proof.Safety Sys2Proof.Laws

variable {s t : State}

/-- An access that has a next state comes after the last CMD write returned (60_exceptions.md R174). -/
theorem whenIdle_eq_next {o : Host.Outcome State Fault Refusal} :
    whenIdle s o = .next t ↔ s.delivery = [] ∧ o = .next t := by
  by_cases h : s.delivery = [] <;> simp [whenIdle, h]

theorem runWord_cases {w : CmdWord} (h : runWord w s = .next t) :
    (∃ i, decode s.cfg.nreg w = .ok i ∧ exec i s.issueCommand = .next t) ∨
      ∃ e, decode s.cfg.nreg w = .error e ∧ t = s.issueCommand.setStatus .illegalCommand := by
  cases hd : decode s.cfg.nreg w with
  | ok i => exact .inl ⟨i, rfl, by simpa [runWord, hd] using h⟩
  | error e => exact .inr ⟨e, rfl, by simpa [runWord, hd] using h.symm⟩

theorem deliverByte_cases {b : Byte} (h : deliverByte b s = .next t) :
    (s.delivery.length < 15 ∧ t = { s with delivery := s.delivery ++ [b] }) ∨
      (15 ≤ s.delivery.length ∧ runWord (bytesWord (s.delivery ++ [b])) s = .next t) := by
  by_cases hl : s.delivery.length < 15
  · exact .inl ⟨hl, by simpa [deliverByte, hl] using h.symm⟩
  · exact .inr ⟨Nat.not_lt.1 hl, by simpa [deliverByte, hl] using h⟩

theorem writeHin_eq_next {k : Nat} {bs : List Byte} :
    writeHin k bs s = .next t ↔ k + bs.length ≤ s.cfg.hinCap ∧ t = { s with hin := s.hin.writeBlock k bs } := by
  by_cases h : k + bs.length ≤ s.cfg.hinCap <;> simp [writeHin, h, eq_comm]

theorem writeHinLen_eq_next {v : BitVec 64} :
    writeHinLen v s = .next t ↔ v.toNat ≤ s.cfg.hinCap ∧ t = { s with hinLen := v } := by
  by_cases h : v.toNat ≤ s.cfg.hinCap <;> simp [writeHinLen, h, eq_comm]

/-- A read of a space changes the fault mark and what the host was last given, and nothing else (20_memory.md R47;
log 21, log 22). -/
theorem readSpace_frame {sp : Space} {k w : Nat} (h : readSpace sp k w s = .next t) :
    ∃ m v, t = State.giveHost w v { s with faultMark := m } := by
  unfold readSpace at h
  split at h
  · cases sp with
    | hin => exact ⟨_, _, (Host.Outcome.next.inj h).symm⟩
    | hout => exact ⟨_, _, (Host.Outcome.next.inj h).symm⟩
    | vview =>
      obtain ⟨m, hm⟩ := noteView_eq s k w
      exact ⟨m, _, by simpa [hm] using (Host.Outcome.next.inj h).symm⟩
  · cases h

/-- A step that has a next state is idle or performs the host's next action (20_memory.md R50, log 11). -/
theorem step_cases (h : step s = .next t) :
    s.cfg.wf = true ∧
      ((s.pending = [] ∧ t = s) ∨
        ∃ a rest, s.pending = a :: rest ∧ perform a { s with pending := rest } = .next t) := by
  unfold step runNext at h
  split at h
  · next hwf =>
    refine ⟨hwf, ?_⟩
    split at h
    · next hp => exact .inl ⟨hp, (Host.Outcome.next.inj h).symm⟩
    · next a rest hp => exact .inr ⟨a, rest, hp, h⟩
  · cases h

end Sys2Proof.Proofs
end

section
/-! The parameters of the instance, settling O58. They are those of its construction (00_scope.md R5, log 7): each operation keeps them, and
so does every step. -/

namespace Sys2Proof.Proofs

open Sys2Proof.Machine Sys2Proof.Safety Sys2Proof.Laws

variable {s t : State}

@[simp] theorem writeResult_cfg (rd : Reg) (v : Value) (s : State) : (s.writeResult rd v).cfg = s.cfg := rfl

@[simp] theorem withoutResult_cfg (r : Reg) (dest : Option Reg) (s : State) :
    (s.withoutResult r dest).cfg = s.cfg := by
  cases dest <;> simp [State.withoutResult]

@[simp] theorem effect_cfg (s : State) (i : Instr) : (effect s i).cfg = s.cfg := by
  cases i
  case fromhex rd => simp only [effect]; split <;> simp
  all_goals simp [effect]

theorem exec_cfg {i : Instr} (h : exec i s = .next t) : t.cfg = s.cfg := by
  obtain ⟨-, rfl⟩ | ⟨r, -, rfl⟩ := exec_cases h
  · exact effect_cfg s i
  · exact withoutResult_cfg r i.dest s

theorem runWord_cfg {w : CmdWord} (h : runWord w s = .next t) : t.cfg = s.cfg := by
  obtain ⟨i, -, hx⟩ | ⟨e, -, rfl⟩ := runWord_cases h
  · simpa using exec_cfg hx
  · simp

theorem deliverByte_cfg {b : Byte} (h : deliverByte b s = .next t) : t.cfg = s.cfg := by
  obtain ⟨-, rfl⟩ | ⟨-, hw⟩ := deliverByte_cases h
  · rfl
  · exact runWord_cfg hw

theorem readSpace_cfg {sp : Space} {k w : Nat} (h : readSpace sp k w s = .next t) : t.cfg = s.cfg := by
  obtain ⟨m, v, rfl⟩ := readSpace_frame h
  rfl

theorem act_cfg {a : HostAction} (h : act a s = .next t) : t.cfg = s.cfg := by
  cases a with
  | writeCmd w => exact runWord_cfg (whenIdle_eq_next.1 h).2
  | writeCmdByte b => exact deliverByte_cfg h
  | writeHin k bs =>
    obtain ⟨-, hw⟩ := whenIdle_eq_next.1 h
    obtain ⟨-, rfl⟩ := writeHin_eq_next.1 hw
    rfl
  | writeHinLen v =>
    obtain ⟨-, hw⟩ := whenIdle_eq_next.1 h
    obtain ⟨-, rfl⟩ := writeHinLen_eq_next.1 hw
    rfl
  | readStatus | readHinLen | readHoutLen =>
    obtain ⟨-, hr⟩ := whenIdle_eq_next.1 h
    cases hr
    rfl
  | readBytes sp k w => exact readSpace_cfg (whenIdle_eq_next.1 h).2
  | reset =>
    simp only [act] at h
    split at h <;> cases h <;> rfl
  | writeReadOnly p => cases (whenIdle_eq_next.1 h).2
  | readCmd => cases (whenIdle_eq_next.1 h).2
  | duringCommand w o =>
    cases o with
    | access => cases h
    | reset => cases h; rfl
  | suppressedHex r => cases h; rfl

/-- Settles O58: an idle step answers the same state, and every action of the host keeps the parameters. -/
theorem stepKeepsTheParameters : Obligations.StepKeepsTheParameters := by
  intro s t h
  obtain ⟨-, ⟨-, rfl⟩ | ⟨a, rest, -, hp⟩⟩ := step_cases h
  · rfl
  · have hc := act_cfg (act_of_perform hp)
    exact hc

end Sys2Proof.Proofs
end

section
/-! SUPPORT. What a command can do, said once (60_exceptions.md R162, R163): the four ways a command completes, and the
frame of each. The statements over all commands (O39, O40, O41, O45) read it off. -/

namespace Sys2Proof.Proofs

open Sys2Proof.Machine Sys2Proof.Safety Sys2Proof.Laws

variable {s t : State} {i : Instr}

/-- The states a command can leave: its result in RD, a parse error of FROMHEX, a text in HOUT, or no result because a
source is unwritten (10_state.md R23). -/
inductive CommandOutcome (i : Instr) (s : State) : State → Prop
  | result (rd : Reg) (v : Value) :
    i.dest = some rd → (Invariant s → v.length = s.cfg.n) → CommandOutcome i s (s.writeResult rd v)
  | parseError (e : ParseError) : CommandOutcome i s (s.setStatus e.code)
  | text (rs1 : Reg) (txt : List Byte) :
    i = .tohex rs1 ∧ txt = hexN s.cfg.n (s.value rs1) ∨ i = .display rs1 ∧ txt = displayN s.cfg.n (s.value rs1) →
    CommandOutcome i s ((s.setHout txt txt.length).setStatus .ok)
  | noResult (r : Reg) : s.firstUnwritten i.sources = some r → CommandOutcome i s (s.withoutResult r i.dest)

theorem length_of_parseHex {n : Nat} {order : ParseErrorOrder} {txt : List Byte} {v : Value}
    (h : parseHex n order txt = .ok v) : v.length = n := by
  unfold parseHex at h
  split at h
  · cases h
  · cases h
    exact length_parseLimbs n _

/-- With its sources written a command writes its result, reports a parse error or emits its text. -/
theorem effect_outcome (i : Instr) (s : State) : CommandOutcome i s (effect s i) := by
  cases i with
  | zero rd => exact .result rd _ rfl fun _ => length_zeroN _
  | one rd => exact .result rd _ rfl fun _ => length_oneN _
  | fromnat rd imm => exact .result rd _ rfl fun _ => length_fromNatN _ imm
  | max rd => exact .result rd _ rfl fun _ => length_maxN _
  | fromhex rd =>
    simp only [effect]
    split
    · next v hv => exact .result rd v rfl fun _ => length_of_parseHex hv
    · next e _ => exact .parseError e
  | add rd rs1 rs2 => exact .result rd _ rfl fun h => by simp [addN, length_addRipple, length_value h]
  | sub rd rs1 rs2 => exact .result rd _ rfl fun h => by simp [subN, length_subRipple, length_value h]
  | mul rd rs1 rs2 => exact .result rd _ rfl fun _ => length_mulN _ _ _
  | and rd rs1 rs2 | or rd rs1 rs2 | xor rd rs1 rs2 => exact .result rd _ rfl fun _ => length_limbwise _ _ _ _
  | not rd rs1 => exact .result rd _ rfl fun _ => length_notN _ _
  | shl rd rs1 imm => exact .result rd _ rfl fun h => length_shlN (length_value h rs1) _
  | shr rd rs1 imm => exact .result rd _ rfl fun h => length_shrN (length_value h rs1) _
  | tohex rs1 => simpa [effect] using CommandOutcome.text (s := s) rs1 _ (.inl ⟨rfl, rfl⟩)
  | display rs1 => simpa [effect] using CommandOutcome.text (s := s) rs1 _ (.inr ⟨rfl, rfl⟩)

theorem exec_outcome (h : exec i s = .next t) : CommandOutcome i s t := by
  obtain ⟨-, rfl⟩ | ⟨r, hr, rfl⟩ := exec_cases h
  · exact effect_outcome i s
  · exact .noResult r hr

/-- Settles O39: a result and a command without one change RD only; a text and a parse error change no register. -/
theorem onlyTheDestinationChanges : Obligations.OnlyTheDestinationChanges := by
  intro i s t r h hr
  cases exec_outcome h with
  | result rd v hd =>
    have hne : r ≠ rd := fun e => hr (by rw [hd, e])
    exact (writesResult_writeResult rd v s).others r hne
  | parseError e => rfl
  | text rs1 txt _ => rfl
  | noResult q hq => exact (noResult_withoutResult (firstUnwritten_unwritten hq) _).others r hr

/-- Settles O40: none of the four outcomes writes HIN or HIN_LEN. -/
theorem noCommandWritesTheInput : Obligations.NoCommandWritesTheInput := by
  intro i s t h
  cases exec_outcome h with
  | result rd v _ => exact (writesResult_writeResult rd v s).input
  | parseError e => exact keepsInput_refl s
  | text rs1 txt _ => exact keepsInput_refl s
  | noResult q hq => exact (noResult_withoutResult (firstUnwritten_unwritten hq) _).input

/-- Settles O41: of the four outcomes a text alone writes HOUT, and only TOHEX and DISPLAY have that one. -/
theorem onlyTextCommandsWriteTheOutput : Obligations.OnlyTextCommandsWriteTheOutput := by
  intro i s t h hi
  cases exec_outcome h with
  | result rd v _ => exact (writesResult_writeResult rd v s).output
  | parseError e => exact keepsOutput_refl s
  | text rs1 txt ht =>
    obtain ⟨htohex, hdisplay⟩ := hi rs1
    obtain ⟨e, -⟩ | ⟨e, -⟩ := ht
    · exact absurd e htohex
    · exact absurd e hdisplay
  | noResult q hq => exact (noResult_withoutResult (firstUnwritten_unwritten hq) _).output

/-- Settles O45: with an unwritten source the check of the sources answers no result, and without one the fault mark is
out of reach of every outcome. -/
theorem unwrittenSourceIsMarked : Obligations.UnwrittenSourceIsMarked := by
  intro i s
  refine ⟨fun r hr => ?_, fun t hw h => ?_⟩
  · rw [exec_eq_withSources]
    exact withSources_of_unwritten hr
  · cases exec_outcome h with
    | result rd v _ => exact (writesResult_writeResult rd v s).mark
    | parseError e => rfl
    | text rs1 txt _ => rfl
    | noResult q hq =>
      rw [firstUnwritten_eq_none.2 hw] at hq
      cases hq

/-- A command leaves the parameters, the counters and the host's fields alone. -/
theorem exec_keepsHarness (h : exec i s = .next t) : KeepsHarness s t := by
  cases exec_outcome h with
  | result rd v _ => exact (writesResult_writeResult rd v s).harness
  | parseError e => exact ⟨rfl, rfl, rfl, rfl, rfl, rfl, rfl, rfl⟩
  | text rs1 txt _ => exact ⟨rfl, rfl, rfl, rfl, rfl, rfl, rfl, rfl⟩
  | noResult q hq => exact (noResult_withoutResult (firstUnwritten_unwritten hq) _).harness

end Sys2Proof.Proofs
end

section
/-! SUPPORT. What a host action can do, said once (60_exceptions.md R174): it completes a command word, it resets the
block, or it is one of the host's updates, which reach no register and no output. The statements about the command index
and the registers (O6, O11, O59) read it off. -/

namespace Sys2Proof.Proofs

open Sys2Proof.Machine Sys2Proof.Safety Sys2Proof.Laws

variable {s t : State} {a : HostAction}

/-- The action hands the block its command word `w`: written whole, or by the last of its 16 bytes (30_encoding.md R60,
R61; log 13). -/
def CompletesWord (s : State) (a : HostAction) (w : CmdWord) : Prop :=
  a = .writeCmd w ∨ ∃ b, a = .writeCmdByte b ∧ 15 ≤ s.delivery.length ∧ w = bytesWord (s.delivery ++ [b])

/-- The updates of the host actions that neither run a command nor reset the block. -/
inductive HostUpdate (s : State) : State → Prop
  | delivered (b : Byte) : s.delivery.length < 15 → HostUpdate s { s with delivery := s.delivery ++ [b] }
  | hin (k : Nat) (bs : List Byte) :
    k + bs.length ≤ s.cfg.hinCap → HostUpdate s { s with hin := s.hin.writeBlock k bs }
  | hinLen (v : BitVec 64) : v.toNat ≤ s.cfg.hinCap → HostUpdate s { s with hinLen := v }
  | read (m : Option ModelFault) (w v : Nat) : HostUpdate s (State.giveHost w v { s with faultMark := m })
  | refused (m : RefusedAction) : HostUpdate s (s.refuseAction m)

/-- The states a host action can leave. -/
inductive ActOutcome (s : State) (a : HostAction) (t : State) : Prop
  | command (w : CmdWord) : CompletesWord s a w → runWord w s = .next t → ActOutcome s a t
  | reset : a = .reset → t = s.resetBlock → ActOutcome s a t
  | update : (∀ w, ¬ CompletesWord s a w) → HostUpdate s t → ActOutcome s a t

theorem HostUpdate.slot_eq (h : HostUpdate s t) (r : Reg) : t.slot r = s.slot r := by cases h <;> rfl

theorem HostUpdate.ci_eq (h : HostUpdate s t) : t.ci = s.ci := by cases h <;> rfl

/-- A word is completed by a whole write or by a sixteenth byte. -/
theorem exists_completesWord : (∃ w, CompletesWord s a w) ↔
    (∃ w, a = .writeCmd w) ∨ ∃ b, a = .writeCmdByte b ∧ 15 ≤ s.delivery.length := by
  simp only [CompletesWord, exists_or]
  constructor
  · rintro (hw | ⟨w, b, hb, hl, -⟩)
    · exact .inl hw
    · exact .inr ⟨b, hb, hl⟩
  · rintro (hw | ⟨b, hb, hl⟩)
    · exact .inl hw
    · exact .inr ⟨_, b, hb, hl, rfl⟩

theorem act_outcome (h : act a s = .next t) : ActOutcome s a t := by
  cases a with
  | writeCmd w => exact .command w (.inl rfl) (whenIdle_eq_next.1 h).2
  | writeCmdByte b =>
    obtain ⟨hl, rfl⟩ | ⟨hl, hw⟩ := deliverByte_cases h
    · exact .update (by simp [CompletesWord, hl]) (.delivered b hl)
    · exact .command _ (.inr ⟨b, rfl, hl, rfl⟩) hw
  | writeHin k bs =>
    obtain ⟨-, hw⟩ := whenIdle_eq_next.1 h
    obtain ⟨hk, rfl⟩ := writeHin_eq_next.1 hw
    exact .update (by simp [CompletesWord]) (.hin k bs hk)
  | writeHinLen v =>
    obtain ⟨-, hw⟩ := whenIdle_eq_next.1 h
    obtain ⟨hv, rfl⟩ := writeHinLen_eq_next.1 hw
    exact .update (by simp [CompletesWord]) (.hinLen v hv)
  | readStatus | readHinLen | readHoutLen =>
    obtain ⟨-, hr⟩ := whenIdle_eq_next.1 h
    cases hr
    exact .update (by simp [CompletesWord]) (.read s.faultMark _ _)
  | readBytes sp k w =>
    obtain ⟨m, v, rfl⟩ := readSpace_frame (whenIdle_eq_next.1 h).2
    exact .update (by simp [CompletesWord]) (.read m w v)
  | reset =>
    simp only [act] at h
    split at h <;> cases h
    · exact .reset rfl rfl
    · exact .update (by simp [CompletesWord]) (.refused _)
  | writeReadOnly p => cases (whenIdle_eq_next.1 h).2
  | readCmd => cases (whenIdle_eq_next.1 h).2
  | duringCommand w o =>
    cases o with
    | access => cases h
    | reset =>
      cases h
      exact .update (by simp [CompletesWord]) (.refused _)
  | suppressedHex r =>
    cases h
    exact .update (by simp [CompletesWord]) (.refused _)

/-- A step at a list that begins with an action performs that action (20_memory.md R50; log 11). -/
theorem step_eq_perform {rest : List HostAction} (hwf : s.cfg.wf = true) (hp : s.pending = a :: rest) :
    step s = perform a { s with pending := rest } := by
  simp [step, runNext, hwf, hp]

/-- A step that has a next state, at a list that begins with an action, has an outcome of that action. -/
theorem step_outcome {rest : List HostAction} (hp : s.pending = a :: rest) (h : step s = .next t) :
    ActOutcome { s with pending := rest } a t := by
  obtain ⟨hwf, -⟩ := step_cases h
  rw [step_eq_perform hwf hp] at h
  exact act_outcome (act_of_perform h)

/-- Settles O6: the action is performed, and a CMD write with no delivery in progress issues its word and runs it. -/
theorem stepRunsTheDecodedCommand : Obligations.StepRunsTheDecodedCommand := by
  refine ⟨fun s a rest => step_eq_perform, fun s w rest i hwf hm hp hd hdec => ?_⟩
  have hissue : State.issueCommand { s with pending := rest } =
      { s with pending := rest, ci := s.ci + 1, draws := s.draws + 1 } := by
    simp [State.issueCommand, hd]
  calc step s = perform (.writeCmd w) { s with pending := rest } := step_eq_perform hwf hp
    _ = act (.writeCmd w) { s with pending := rest } := perform_eq_act (s := { s with pending := rest }) hm _
    _ = runWord w { s with pending := rest } := by simp [act, whenIdle, hd]
    _ = exec i (State.issueCommand { s with pending := rest }) := by simp [runWord, hdec]
    _ = _ := by rw [hissue]

theorem runWord_ci {w : CmdWord} (h : runWord w s = .next t) : t.ci = s.ci + 1 := by
  obtain ⟨i, -, hx⟩ | ⟨e, -, rfl⟩ := runWord_cases h
  · obtain ⟨-, -, -, -, -, hci, -⟩ := exec_keepsHarness hx
    exact hci
  · rfl

/-- Settles O11: the word that the action completes advances the index, legal or not; a reset and the host's updates
leave it. -/
theorem commandIndexCountsCommands : Obligations.CommandIndexCountsCommands := by
  intro s t a rest hp h
  cases step_outcome hp h with
  | command w hw hr =>
    rw [if_pos (exists_completesWord.1 ⟨w, hw⟩)]
    have hci := runWord_ci hr
    exact hci
  | reset ha ht =>
    subst ha ht
    simp
  | update hno hu =>
    rw [if_neg fun hc => (exists_completesWord.2 hc).elim hno]
    exact hu.ci_eq

/-- Settles O59: an illegal word changes no register, a legal one its command's destination only, and the host's updates
none. -/
theorem registersChangeOnlyByCommands : Obligations.RegistersChangeOnlyByCommands := by
  intro s t a rest r hp h hne
  cases step_outcome hp h with
  | command w hw hr =>
    obtain ⟨i, hdec, hx⟩ | ⟨e, -, rfl⟩ := runWord_cases hr
    · have hdest : i.dest = some r := by
        by_contra hd
        have hkeeps := onlyTheDestinationChanges i _ t r hx hd
        exact hne hkeeps
      exact .inr ⟨w, i, hw, hdec, hdest⟩
    · exact absurd rfl hne
  | reset ha _ => exact .inl ha
  | update _ hu => exact absurd (hu.slot_eq r) hne

end Sys2Proof.Proofs
end

section
/-! The invariant, settling O56, O57 and O60: each update keeps it (10_state.md R21, R28, R30, R31, R36), and it says
what a host reads of HOUT (43_serialization.md R140, R143). -/

namespace Sys2Proof.Proofs

open Sys2Proof.Machine Sys2Proof.Safety Sys2Proof.Laws

variable {s t : State}

theorem invariant_initial {c : Config} (h : c.wf = true) : Invariant (State.initial c) where
  config := h
  limbs r := by
    rw [initial_slot]
    exact List.length_replicate
  absent r _ := by simp
  hinLen := by simp [State.initial]
  hin := by simp [State.initial, Memory.wf]
  hout := by simp [State.initial, Memory.wf]
  output := .inl rfl
  delivery := by simp [State.initial]

/-- Settles O56: an empty block meets every clause, at any legal parameters. -/
theorem resetMeetsTheInvariant : Obligations.ResetMeetsTheInvariant :=
  ⟨fun _ => invariant_initial, invariant_initial (by decide)⟩

theorem invariant_resetBlock (h : Invariant s) : Invariant s.resetBlock :=
  invariant_congr (invariant_initial h.config) rfl rfl rfl rfl rfl rfl (by simp)

theorem invariant_setStatus (h : Invariant s) (c : StatusCode) : Invariant (s.setStatus c) :=
  invariant_congr h rfl rfl rfl rfl rfl rfl h.delivery

theorem invariant_issueCommand (h : Invariant s) : Invariant s.issueCommand :=
  invariant_congr h rfl rfl rfl rfl rfl rfl (by simp)

/-- Writing N limbs to one of the NREG registers keeps the invariant (10_state.md R21, 30_encoding.md R62). -/
theorem invariant_setReg (h : Invariant s) {rd : Reg} {v : Value} (hrd : rd.val < s.cfg.nreg)
    (hv : v.length = s.cfg.n) : Invariant (s.setReg rd v) where
  config := h.config
  limbs r := by
    by_cases hr : r = rd
    · simpa [hr] using hv
    · rw [setReg_slot_ne v s hr]
      exact h.limbs r
  absent r hn := by
    have hr : r ≠ rd := by
      rintro rfl
      exact absurd hrd (Nat.not_lt.2 hn)
    rw [setReg_slot_ne v s hr]
    exact h.absent r hn
  hinLen := h.hinLen
  hin := h.hin
  hout := h.hout
  output := h.output
  delivery := h.delivery

/-- A text written to HOUT is what HOUT holds, when its length fits HOUT_LEN. -/
theorem houtHolds_setHout {txt : List Byte} (s : State) (h : txt.length < 2 ^ 64) :
    HoutHolds (s.setHout txt txt.length) txt := by
  refine ⟨Nat.mod_eq_of_lt h, fun j hj => ?_⟩
  simp [read_writeBlock, hj]

/-- Emitting a canonical text keeps the invariant (10_state.md R31, 43_serialization.md R146). -/
theorem invariant_setHout (h : Invariant s) {v : Value} {txt : List Byte} (hv : v.length = s.cfg.n)
    (ht : txt = hexN s.cfg.n v ∨ txt = displayN s.cfg.n v) : Invariant (s.setHout txt txt.length) := by
  have hlen : txt.length ≤ 16 * s.cfg.n + 2 := by
    rcases ht with rfl | rfl <;> simp
  obtain ⟨-, -, -, hcap, hcap64⟩ := config_facts h.config
  have hholds := houtHolds_setHout s (txt := txt) (by omega)
  refine ⟨h.config, h.limbs, h.absent, h.hinLen, h.hin, ⟨wf_writeBlock h.hout.1 0 txt, ?_⟩, ?_, h.delivery⟩
  · exact bound_writeBlock h.hout.2 (by simpa using hlen)
  · refine .inr ⟨v, hv, ?_⟩
    rcases ht with rfl | rfl
    · exact .inl hholds
    · exact .inr hholds

/-- A command without a result keeps the invariant: a destination takes N free limbs (log 1). -/
theorem invariant_withoutResult (h : Invariant s) (r : Reg) {dest : Option Reg}
    (hd : ∀ rd, dest = some rd → rd.val < s.cfg.nreg) : Invariant (s.withoutResult r dest) := by
  have hnoted : Invariant (s.noteRead r) := invariant_congr h rfl rfl rfl rfl rfl rfl h.delivery
  cases dest with
  | none => exact invariant_setStatus hnoted _
  | some rd => exact invariant_setStatus (invariant_setReg hnoted (hd rd rfl) (by simp [State.freeResult])) _

/-- A command whose destination is one of the NREG registers keeps the invariant. -/
theorem exec_invariant {i : Instr} (hi : Invariant s) (hd : ∀ rd, i.dest = some rd → rd.val < s.cfg.nreg)
    (h : exec i s = .next t) : Invariant t := by
  cases exec_outcome h with
  | result rd v hrd hv => exact invariant_setStatus (invariant_setReg hi (hd rd hrd) (hv hi)) _
  | parseError e => exact invariant_setStatus hi _
  | text rs1 txt ht =>
    have htxt : txt = hexN s.cfg.n (s.value rs1) ∨ txt = displayN s.cfg.n (s.value rs1) := ht.imp And.right And.right
    exact invariant_setStatus (invariant_setHout hi (length_value hi rs1) htxt) _
  | noResult r _ => exact invariant_withoutResult hi r hd

/-- A word that decodes has one of the NREG registers as its destination (30_encoding.md R62, R67 d). -/
theorem dest_lt_of_decode {nreg : Nat} {w : CmdWord} {i : Instr} (h : decode nreg w = .ok i) {rd : Reg}
    (hd : i.dest = some rd) : rd.val < nreg := by
  have hwf : i.wellFormed nreg = true := by
    unfold decode at h
    split at h
    · split at h
      · next hw =>
        cases h
        exact hw
      · cases h
    · cases h
  simp only [Instr.wellFormed, List.all_eq_true, decide_eq_true_eq] at hwf
  exact hwf rd (by simp [hd])

theorem runWord_invariant {w : CmdWord} (hi : Invariant s) (h : runWord w s = .next t) : Invariant t := by
  obtain ⟨i, hdec, hx⟩ | ⟨e, -, rfl⟩ := runWord_cases h
  · exact exec_invariant (invariant_issueCommand hi) (fun rd hrd => dest_lt_of_decode hdec hrd) hx
  · exact invariant_setStatus (invariant_issueCommand hi) _

theorem HostUpdate.invariant (h : HostUpdate s t) (hi : Invariant s) : Invariant t := by
  cases h with
  | delivered b hl => exact invariant_congr hi rfl rfl rfl rfl rfl rfl (by simp; omega)
  | hin k bs hk =>
    exact { hi with hin := ⟨wf_writeBlock hi.hin.1 k bs, bound_writeBlock hi.hin.2 hk⟩ }
  | hinLen v hv => exact { hi with hinLen := hv }
  | read m w v => exact invariant_congr hi rfl rfl rfl rfl rfl rfl hi.delivery
  | refused m => exact invariant_congr hi rfl rfl rfl rfl rfl rfl (by simp)

/-- Settles O57: an idle step answers the same state, and each outcome of the host's next action meets the invariant. -/
theorem stepKeepsTheInvariant : Obligations.StepKeepsTheInvariant := by
  intro s t hi h
  obtain ⟨-, ⟨-, rfl⟩ | ⟨a, rest, hp, -⟩⟩ := step_cases h
  · exact hi
  · have hi' : Invariant { s with pending := rest } := invariant_congr hi rfl rfl rfl rfl rfl rfl hi.delivery
    cases step_outcome hp h with
    | command w _ hr => exact runWord_invariant hi' hr
    | reset _ ht =>
      subst ht
      exact invariant_resetBlock hi'
    | update _ hu => exact hu.invariant hi'

/-- The codes of `0` to `9` and `a` to `f` (43_serialization.md R140). -/
def IsLowerHex (b : Byte) : Prop := (0x30 ≤ b.toNat ∧ b.toNat ≤ 0x39) ∨ (0x61 ≤ b.toNat ∧ b.toNat ≤ 0x66)

theorem isLowerHex_hexDigit : ∀ d, d < 16 → IsLowerHex (hexDigit d) := by
  unfold IsLowerHex
  decide

theorem isLowerHex_of_mem_hexN {n : Nat} {v : Value} {b : Byte} (h : b ∈ hexN n v) : IsLowerHex b := by
  simp only [hexN, limbText, List.mem_flatMap, List.mem_map] at h
  obtain ⟨q, -, r, -, rfl⟩ := h
  exact isLowerHex_hexDigit _ (Nat.mod_lt _ (by decide))

/-- Below HOUT_LEN a host reads the bytes of the text HOUT holds (10_state.md R30). -/
theorem houtByteAt_of_houtHolds {txt : List Byte} (h : HoutHolds s txt) {j : Nat} (hj : j < txt.length) :
    s.houtByteAt j = txt[j] := by
  obtain ⟨hlen, hbytes⟩ := h
  simp [State.houtByteAt, hlen, hj, hbytes j hj]

/-- Settles O60: HOUT holds nothing, a canonical hex, whose bytes are digits, or one behind `0x`. -/
theorem outputIsLowerCaseHex : Obligations.OutputIsLowerCaseHex := by
  intro s hi
  obtain h0 | ⟨v, -, hhex | hdisplay⟩ := hi.output
  · refine ⟨.inl h0, fun h2 => by omega, fun j hj => by omega⟩
  · have hlen : s.houtLen.toNat = 16 * s.cfg.n := by simpa using hhex.1
    refine ⟨.inr (.inl hlen), fun h2 => by omega, fun j hj _ => ?_⟩
    rw [houtByteAt_of_houtHolds hhex (hhex.1 ▸ hj)]
    exact isLowerHex_of_mem_hexN (List.getElem_mem _)
  · have hlen : s.houtLen.toNat = 16 * s.cfg.n + 2 := by simpa using hdisplay.1
    refine ⟨.inr (.inr hlen), fun _ => ⟨?_, ?_⟩, fun j hj hx => ?_⟩
    · exact houtByteAt_of_houtHolds hdisplay (by simp)
    · exact houtByteAt_of_houtHolds hdisplay (by simp)
    · rw [houtByteAt_of_houtHolds hdisplay (hdisplay.1 ▸ hj)]
      match j with
      | 0 => exact (.inl (by decide) : IsLowerHex 0x30#8)
      | 1 => exact absurd ⟨hlen, rfl⟩ hx
      | j + 2 => exact isLowerHex_of_mem_hexN (List.getElem_mem _)

end Sys2Proof.Proofs
end

section
/-! The host's own reads and writes, settling O49, O50 and O55 (20_memory.md R44, R45, R47; 10_state.md R27 to R31,
R36). -/

namespace Sys2Proof.Proofs

open Sys2Proof.Machine Sys2Proof.Safety Sys2Proof.Laws

variable {s t : State}

/-- With no delivery in progress the host's access is what the port does (60_exceptions.md R174). -/
theorem whenIdle_of_idle (hd : s.delivery = []) (o : Host.Outcome State Fault Refusal) : whenIdle s o = o := by
  simp [whenIdle, hd]

/-- The bytes composed little-endian are what the read returns (20_memory.md R44). -/
theorem returnsBytes_giveHost (w : Nat) (byte : Nat → Byte) (s : State) :
    ReturnsBytes w byte (s.giveHost w (leNat ((List.range w).map byte))) := by
  refine ⟨rfl, ?_, fun j hj => ?_⟩
  · simpa using leNat_lt ((List.range w).map byte)
  · rw [giveHost_returned, leNat_digit _ j (by simpa using hj), List.getElem_map, List.getElem_range]

/-- A read inside a space returns its bytes and changes nothing but what was returned and, for VVIEW, the fault mark. -/
theorem readSpace_returns {sp : Space} {k w : Nat} (h : k + w ≤ spaceSize s.cfg sp) :
    ∃ t, readSpace sp k w s = .next t ∧ ReturnsBytes w (fun j => s.spaceByte sp (k + j)) t ∧
      t = { s with faultMark := t.faultMark, returned := t.returned } ∧
      (sp ≠ .vview → t.faultMark = s.faultMark) := by
  simp only [readSpace, if_pos h]
  refine ⟨_, rfl, returnsBytes_giveHost w _ _, ?_⟩
  cases sp with
  | hin => exact ⟨rfl, fun _ => rfl⟩
  | hout => exact ⟨rfl, fun _ => rfl⟩
  | vview =>
    obtain ⟨m, hm⟩ := noteView_eq s k w
    simp only [hm]
    exact ⟨rfl, fun hne => absurd rfl hne⟩

/-- Settles O49: each space's read returns its bytes, and only a VVIEW read can move the fault mark. -/
theorem hostReadsComposeLittleEndian : Obligations.HostReadsComposeLittleEndian := by
  intro s k w hm hd
  simp only [perform_eq_act hm, act, whenIdle_of_idle hd]
  refine ⟨fun h => ?_, fun h => ?_, fun h => ?_, rfl, rfl, rfl⟩
  · obtain ⟨t, hr, hb, ht, hmark⟩ := readSpace_returns (s := s) (sp := .hin) h
    exact ⟨t, hr, hb, by rwa [hmark (by decide)] at ht⟩
  · obtain ⟨t, hr, hb, ht, hmark⟩ := readSpace_returns (s := s) (sp := .hout) h
    exact ⟨t, hr, hb, by rwa [hmark (by decide)] at ht⟩
  · rw [Nat.mul_assoc] at h
    obtain ⟨t, hr, hb, ht, -⟩ := readSpace_returns (s := s) (sp := .vview) h
    exact ⟨t, hr, hb, ht⟩

/-- Settles O50: a block write is read back inside the block, and every other byte is the old one. -/
theorem hostWritesStoreOnly : Obligations.HostWritesStoreOnly := by
  intro s k bs v hm hd
  simp only [perform_eq_act hm, act, whenIdle_of_idle hd]
  refine ⟨fun hk => ⟨_, writeHin_eq_next.2 ⟨hk, rfl⟩, read_writeBlock s.hin k bs, rfl⟩, fun hv => ?_⟩
  exact writeHinLen_eq_next.2 ⟨hv, rfl⟩

/-- Settles O55: every field of the state after reset is the literal the spec gives. -/
theorem resetStateHoldsTheSpecsValues : Obligations.ResetStateHoldsTheSpecsValues :=
  ⟨fun r => by simp [State.reset], by decide, rfl, rfl, rfl, rfl, rfl, rfl⟩

end Sys2Proof.Proofs
end

section
/-! SUPPORT. The word of a command, said once for all 16 (30_encoding.md R62, R64 to R66): the format each command has,
and the fields of its word. The encoding clause of each command's statement reads it off. -/

namespace Sys2Proof.Proofs

open Sys2Proof.Machine Sys2Proof.Safety Sys2Proof.Laws

/-- The operand format of a command (30_encoding.md R66). -/
def formatOf : Instr → Format
  | .zero _ | .one _ | .max _ | .fromhex _ => .d
  | .fromnat _ _ => .di
  | .add _ _ _ | .sub _ _ _ | .mul _ _ _ | .and _ _ _ | .or _ _ _ | .xor _ _ _ => .dst
  | .not _ _ => .ds
  | .shl _ _ _ | .shr _ _ _ => .dsi
  | .tohex _ | .display _ => .s

/-- Every command is encoded with its OP value, in its format, its registers in their fields. -/
theorem encodedAs_opcode (i : Instr) : EncodedAs i i.opcode (formatOf i) where
  op := by cases i <;> simp [encode]
  rd r h := by cases i <;> simp_all [encode, Instr.dest]
  rs1 r h := by cases i <;> simp_all [encode, Instr.sources]
  rs2 r h := by cases i <;> simp_all [encode, Instr.sources]
  rsv := by cases i <;> simp [encode]
  unused := by cases i <;> simp [encode, formatOf, Format.unusedZero]

end Sys2Proof.Proofs
end

section
/-! The byte spaces as commands and the host see them, settling O35, O36, O47 and O48 (20_memory.md R43, R46, R47;
43_serialization.md R142 to R144). -/

namespace Sys2Proof.Proofs

open Sys2Proof.Machine Sys2Proof.Safety Sys2Proof.Laws

variable {s t : State} {a : HostAction}

/-- Settles O35: TOHEX is format S at the canonical hex, whose length is 16·N. -/
theorem tohexEmitsTheCanonicalHex : Obligations.TohexEmitsTheCanonicalHex := by
  intro s rs1 hw
  obtain ⟨t, ht, he⟩ := formatS_spec hexN (fun n => 16 * n) rs1 hw (length_hexN _ _)
  exact ⟨encodedAs_opcode _, t, ht, he, by simpa using he.length⟩

/-- Settles O36: DISPLAY is format S at the display text, the canonical hex behind `0x`. -/
theorem displayEmitsThePrefixedHex : Obligations.DisplayEmitsThePrefixedHex := by
  intro s rs1 hw
  obtain ⟨t, ht, he⟩ := formatS_spec displayN (fun n => 16 * n + 2) rs1 hw (length_displayN _ _)
  exact ⟨encodedAs_opcode _, t, ht, he, by simpa using he.length⟩

/-- Byte `b` of the `8·N` bytes of register `r`'s block of VVIEW belongs to `r` (20_memory.md R43). -/
theorem viewReg_block {c : Config} (r : Reg) {b : Nat} (hb : b < 8 * c.n) : viewReg c (r.val * (8 * c.n) + b) = r := by
  have hdiv : (r.val * (8 * c.n) + b) / (8 * c.n) = r.val := by
    rw [Nat.mul_comm, Nat.mul_add_div (Nat.zero_lt_of_lt hb), Nat.div_eq_of_lt hb, Nat.add_zero]
  rw [viewReg, hdiv]
  exact Fin.ofNat_val_eq_self r

/-- Settles O48: the index splits into the register, the limb and the byte by `8·N` and 8. -/
theorem viewIsLimbMajorLittleEndian : Obligations.ViewIsLimbMajorLittleEndian := by
  intro s r i j hi hj
  have hb : 8 * i + j < 8 * s.cfg.n := by omega
  have hreg := viewReg_block (c := s.cfg) r hb
  have hlimb : (r.val * (8 * s.cfg.n) + (8 * i + j)) % (8 * s.cfg.n) / 8 = i := by
    rw [Nat.mul_comm, Nat.mul_add_mod, Nat.mod_eq_of_lt hb, Nat.mul_add_div (by decide), Nat.div_eq_of_lt hj,
      Nat.add_zero]
  have hbyte : (r.val * (8 * s.cfg.n) + (8 * i + j)) % 8 = j := by
    rw [Nat.mul_left_comm, ← Nat.add_assoc, ← Nat.mul_add, Nat.mul_add_mod, Nat.mod_eq_of_lt hj]
  rw [Nat.add_assoc]
  exact ⟨by rw [State.vviewByte, hreg, hlimb, hbyte], hreg⟩

/-- What a host read returns (60_exceptions.md R174; log 22); an action that is no read leaves the last one's data. -/
def readData (s : State) : HostAction → HostData
  | .readStatus => ⟨1, s.statusByte.toNat⟩
  | .readHinLen => ⟨8, s.hinLen.toNat⟩
  | .readHoutLen => ⟨8, s.houtLen.toNat⟩
  | .readBytes sp k w => ⟨w, leNat ((List.range w).map fun j => s.spaceByte sp (k + j))⟩
  | _ => s.returned

/-- The fault mark a host read leaves: only a VVIEW read can note one (10_state.md R23; log 21). -/
def readMark (s : State) : HostAction → Option ModelFault
  | .readBytes .vview k w => (s.noteView k w).faultMark
  | _ => s.faultMark

theorem readMark_of_ne_vview (h : ∀ k w, a ≠ .readBytes .vview k w) : readMark s a = s.faultMark := by
  unfold readMark
  split
  · next k w => exact absurd rfl (h k w)
  · rfl

/-- A read of a space writes what it returns and the fault mark, and nothing else (20_memory.md R47). -/
theorem readSpace_eq {sp : Space} {k w : Nat} (h : readSpace sp k w s = .next t) :
    t = { s with faultMark := readMark s (.readBytes sp k w), returned := readData s (.readBytes sp k w) } := by
  unfold readSpace at h
  split at h
  · cases sp with
    | hin | hout => exact (Host.Outcome.next.inj h).symm
    | vview =>
      obtain ⟨m, hm⟩ := noteView_eq s k w
      cases h
      simp only [readMark, hm]
      rfl
  · cases h

/-- A read writes what it returns and the fault mark, and nothing else (20_memory.md R47). -/
theorem act_read (hr : IsRead a) (h : act a s = .next t) :
    t = { s with faultMark := readMark s a, returned := readData s a } := by
  cases a with
  | readStatus | readHinLen | readHoutLen => exact (Host.Outcome.next.inj (whenIdle_eq_next.1 h).2).symm
  | readBytes sp k w => exact readSpace_eq (whenIdle_eq_next.1 h).2
  | _ => exact hr.elim

/-- Nothing that a read changes enters what a read returns. -/
theorem readData_hostFields (hr : IsRead a) (s : State) (p : List HostAction) (m : Option ModelFault) (d : HostData) :
    readData { s with pending := p, faultMark := m, returned := d } a = readData s a := by
  cases a with
  | readBytes sp k w => cases sp <;> rfl
  | readStatus | readHinLen | readHoutLen => rfl
  | _ => exact hr.elim

/-- A step at a read takes it off the host's list and writes what it returns and the fault mark. -/
theorem step_read {rest : List HostAction} (hr : IsRead a) (hp : s.pending = a :: rest) (h : step s = .next t) :
    t = { s with pending := rest, faultMark := readMark { s with pending := rest } a, returned := readData s a } := by
  obtain ⟨hwf, -⟩ := step_cases h
  rw [step_eq_perform hwf hp] at h
  have hdata : readData { s with pending := rest } a = readData s a :=
    readData_hostFields hr s rest s.faultMark s.returned
  rw [act_read hr (act_of_perform h), hdata]

/-- The host's list, the fault mark and what was returned are no part of the block (10_state.md R36). -/
theorem sameBlock_hostFields (s : State) (p : List HostAction) (m : Option ModelFault) (d : HostData) :
    SameBlock s { s with pending := p, faultMark := m, returned := d } :=
  ⟨rfl, fun _ => rfl, rfl, keepsInput_refl s, keepsOutput_refl s⟩

/-- Settles O47: a read writes host fields only, which the same read after it does not see; and the mark of a VVIEW read
is the one noted for its lowest unwritten byte. -/
theorem readsHaveNoSideEffect : Obligations.ReadsHaveNoSideEffect := by
  refine ⟨fun s t a rest hr hp h => ?_, fun s t k w rest hp h => ?_⟩
  · cases step_read hr hp h
    refine ⟨sameBlock_hostFields s _ _ _, readMark_of_ne_vview, fun rest' u hrest hu => ?_⟩
    cases step_read hr hrest hu
    exact ⟨readData_hostFields hr s _ _ _, sameBlock_hostFields s _ _ _⟩
  · cases step_read (a := .readBytes .vview k w) trivial hp h
    exact ⟨noteView_of_written (s := { s with pending := rest }),
      fun j hj hu hw => noteView_of_unwritten (s := { s with pending := rest }) hj hu hw⟩

end Sys2Proof.Proofs
end

section
/-! Decode and encode, settling O1 to O5: a word decodes to a command exactly when it is that command's word
(30_encoding.md R65, R68, R69), and a row of the table is the OP and the zero fields of one format (R70). -/

namespace Sys2Proof.Proofs

open Sys2Proof.Machine Sys2Proof.Safety Sys2Proof.Laws

variable {w v : CmdWord} {i j : Instr} {f : Format} {nreg : Nat}

/-- Settles O1, by evaluation of the decoder on the eleven words. -/
theorem specWordsDecode : Obligations.SpecWordsDecode := by
  unfold Obligations.SpecWordsDecode
  decide

theorem acceptWord_eq_ok : acceptWord f w i = .ok j ↔ fieldRsv w = 0 ∧ f.unusedZero w = true ∧ i = j := by
  unfold acceptWord
  split
  · simp_all
  · split <;> simp_all

theorem decodeFields_encode (i : Instr) : decodeFields (encode i) = .ok i := by
  cases i <;> simp [decodeFields, encode, Instr.opcode, acceptWord, Format.unusedZero]

/-- `packWord_fields` for a word whose fields are known by name. -/
theorem packWord_of_fields {op : BitVec 8} {rd rs1 rs2 : Reg} {imm : BitVec 64} (hop : fieldOp w = op)
    (hrd : regOf (fieldRd w) = rd) (hrs1 : regOf (fieldRs1 w) = rs1) (hrs2 : regOf (fieldRs2 w) = rs2)
    (hrsv : fieldRsv w = 0) (himm : fieldImm w = imm) : packWord op rd rs1 rs2 imm = w := by
  subst hop hrd hrs1 hrs2 himm
  exact packWord_fields w hrsv

theorem encode_of_decodeFields (h : decodeFields w = .ok i) : encode i = w := by
  unfold decodeFields at h
  split at h
  case h_17 => cases h
  all_goals
    next hop =>
    obtain ⟨hrsv, hunused, rfl⟩ := acceptWord_eq_ok.1 h
    simp only [Format.unusedZero, Bool.and_eq_true, beq_iff_eq] at hunused
    apply packWord_of_fields hop <;> simp [regOf, hunused, hrsv]

theorem wellFormed_iff : i.wellFormed nreg = true ↔ ∀ r ∈ i.dest.toList ++ i.sources, r.val < nreg := by
  rw [Instr.wellFormed, List.all_eq_true]
  simp only [decide_eq_true_eq]

/-- Sixteen registers hold every register number that a field can name (30_encoding.md R62). -/
theorem wellFormed_sixteen (i : Instr) : i.wellFormed 16 = true := wellFormed_iff.2 fun r _ => r.isLt

/-- The decoder inverts the encoder: a command is decoded from its own word and from no other. -/
theorem decodeFields_eq_ok : decodeFields w = .ok i ↔ encode i = w :=
  ⟨encode_of_decodeFields, fun h => h ▸ decodeFields_encode i⟩

theorem decode_eq_ok : decode nreg w = .ok i ↔ encode i = w ∧ i.wellFormed nreg = true := by
  rw [← decodeFields_eq_ok]
  unfold decode
  cases decodeFields w with
  | error e => simp
  | ok j =>
    by_cases hj : j.wellFormed nreg = true
    · simpa [hj] using fun h : j = i => h ▸ hj
    · simpa [hj] using fun h : j = i => h ▸ Bool.eq_false_iff.2 hj

/-- Settles O2: the word is the command's own. -/
theorem decodeOfEncodeIsTheCommand : Obligations.DecodeOfEncodeIsTheCommand :=
  fun _ _ hwf => decode_eq_ok.2 ⟨rfl, hwf⟩

/-- Settles O3: only the command's own word decodes to it. -/
theorem encodeOfDecodeIsTheWord : Obligations.EncodeOfDecodeIsTheWord :=
  fun _ _ _ h => decode_eq_ok.1 h

/-! The mask and match table. -/

/-- The six fields are all the bits of a word (30_encoding.md R60). -/
theorem word_ext_iff : w = v ↔ fieldOp w = fieldOp v ∧ fieldRd w = fieldRd v ∧ fieldRs1 w = fieldRs1 v ∧
    fieldRs2 w = fieldRs2 v ∧ fieldRsv w = fieldRsv v ∧ fieldImm w = fieldImm v := by
  refine ⟨fun h => by simp [h], fun ⟨hop, hrd, hrs1, hrs2, hrsv, himm⟩ => ?_⟩
  have bit {start len : Nat} (h : w.extractLsb' start len = v.extractLsb' start len) {k : Nat} (h1 : start ≤ k)
      (h2 : k < start + len) : w.getLsbD k = v.getLsbD k := by
    have hk := congrArg (·.getLsbD (k - start)) h
    have hlt : k - start < len := by omega
    simpa [hlt, Nat.add_sub_cancel' h1] using hk
  refine BitVec.eq_of_getLsbD_eq fun k hk => ?_
  have hrange : k < 8 ∨ (8 ≤ k ∧ k < 12) ∨ (12 ≤ k ∧ k < 16) ∨ (16 ≤ k ∧ k < 20) ∨ (20 ≤ k ∧ k < 64) ∨ 64 ≤ k := by
    omega
  obtain h | ⟨h1, h2⟩ | ⟨h1, h2⟩ | ⟨h1, h2⟩ | ⟨h1, h2⟩ | h := hrange
  · exact bit hop (Nat.zero_le k) (by omega)
  · exact bit hrd h1 h2
  · exact bit hrs1 h1 h2
  · exact bit hrs2 h1 h2
  · exact bit hrsv h1 h2
  · exact bit himm h (by omega)

@[simp] theorem fieldOp_and (w v : CmdWord) : fieldOp (w &&& v) = fieldOp w &&& fieldOp v := BitVec.extractLsb'_and
@[simp] theorem fieldRd_and (w v : CmdWord) : fieldRd (w &&& v) = fieldRd w &&& fieldRd v := BitVec.extractLsb'_and
@[simp] theorem fieldRs1_and (w v : CmdWord) : fieldRs1 (w &&& v) = fieldRs1 w &&& fieldRs1 v := BitVec.extractLsb'_and
@[simp] theorem fieldRs2_and (w v : CmdWord) : fieldRs2 (w &&& v) = fieldRs2 w &&& fieldRs2 v := BitVec.extractLsb'_and
@[simp] theorem fieldRsv_and (w v : CmdWord) : fieldRsv (w &&& v) = fieldRsv w &&& fieldRsv v := BitVec.extractLsb'_and
@[simp] theorem fieldImm_and (w v : CmdWord) : fieldImm (w &&& v) = fieldImm w &&& fieldImm v := BitVec.extractLsb'_and

/-- The pattern of an OP value: the OP field alone (30_encoding.md R70). -/
def patternOf (op : BitVec 8) : CmdWord := packWord op 0 0 0 0

/-! The mask of a format keeps OP, RSV and the fields the format must find zero (30_encoding.md R65, R70). -/

theorem fieldOp_mask (f : Format) : fieldOp f.mask = BitVec.allOnes 8 := by cases f <;> rfl

theorem fieldRd_mask (f : Format) : fieldRd f.mask = if f = .s then BitVec.allOnes 4 else 0 := by cases f <;> rfl

theorem fieldRs1_mask (f : Format) : fieldRs1 f.mask = if f = .d ∨ f = .di then BitVec.allOnes 4 else 0 := by
  cases f <;> rfl

theorem fieldRs2_mask (f : Format) : fieldRs2 f.mask = if f = .dst then 0 else BitVec.allOnes 4 := by cases f <;> rfl

theorem fieldRsv_mask (f : Format) : fieldRsv f.mask = BitVec.allOnes 44 := by cases f <;> rfl

theorem fieldImm_mask (f : Format) : fieldImm f.mask = if f = .di ∨ f = .dsi then 0 else BitVec.allOnes 64 := by
  cases f <;> rfl

/-- Under the mask of its format a word is an OP's pattern exactly when OP, RSV and the unused fields are as the decoder
wants them (30_encoding.md R65, R70). -/
theorem and_mask_eq_patternOf {op : BitVec 8} :
    w &&& f.mask = patternOf op ↔ fieldOp w = op ∧ fieldRsv w = 0 ∧ f.unusedZero w = true := by
  rw [word_ext_iff, fieldOp_and, fieldRd_and, fieldRs1_and, fieldRs2_and, fieldRsv_and, fieldImm_and, fieldOp_mask,
    fieldRd_mask, fieldRs1_mask, fieldRs2_mask, fieldRsv_mask, fieldImm_mask]
  cases f <;> simp [patternOf, Format.unusedZero, -BitVec.reduceAllOnes, and_assoc, and_left_comm, and_comm]

/-- What a row matches words by (30_encoding.md R69). -/
def rowKey (row : OpcodeRow) : CmdWord × CmdWord := (row.pattern, row.mask)

/-- The pattern and mask of a command: its OP's pattern under its format's mask (30_encoding.md R66, R70). -/
def keyOf (i : Instr) : CmdWord × CmdWord := (patternOf i.opcode, (formatOf i).mask)

theorem hits_of_key {row : OpcodeRow} (h : rowKey row = keyOf i) :
    row.hits w = true ↔ fieldOp w = i.opcode ∧ fieldRsv w = 0 ∧ (formatOf i).unusedZero w = true := by
  obtain ⟨hpattern, hmask⟩ := Prod.mk.inj h
  rw [OpcodeRow.hits, beq_iff_eq, hmask, hpattern, and_mask_eq_patternOf]

/-- One command of each of the 16 kinds, in the order of the table's rows. -/
def commandKinds : List Instr :=
  [.zero 0, .one 0, .fromnat 0 0, .max 0, .fromhex 0, .add 0 0 0, .sub 0 0 0, .mul 0 0 0, .and 0 0 0, .or 0 0 0,
    .xor 0 0 0, .not 0 0, .shl 0 0 0, .shr 0 0 0, .tohex 0, .display 0]

/-- The table's rows are those of the 16 commands (30_encoding.md R66, R70). -/
theorem keys_opcodeTable : opcodeTable.map rowKey = commandKinds.map keyOf := by rfl

theorem opcode_format_mem (i : Instr) :
    (i.opcode, formatOf i) ∈ commandKinds.map fun j => (j.opcode, formatOf j) := by
  cases i <;> simp only [Instr.opcode, formatOf] <;> decide

/-- Every command is of one of the 16 kinds. -/
theorem exists_kind (i : Instr) : ∃ j ∈ commandKinds, keyOf j = keyOf i := by
  obtain ⟨j, hj, h⟩ := List.mem_map.1 (opcode_format_mem i)
  obtain ⟨hop, hformat⟩ := Prod.mk.inj h
  exact ⟨j, hj, by rw [keyOf, hop, hformat, keyOf]⟩

/-- Every row belongs to a command and every command has a row. -/
theorem exists_hit_iff : (∃ row ∈ opcodeTable, row.hits w = true) ↔
    ∃ i : Instr, fieldOp w = i.opcode ∧ fieldRsv w = 0 ∧ (formatOf i).unusedZero w = true := by
  constructor
  · rintro ⟨row, hrow, hhit⟩
    have hkey : rowKey row ∈ commandKinds.map keyOf := keys_opcodeTable ▸ List.mem_map_of_mem hrow
    obtain ⟨i, -, hi⟩ := List.mem_map.1 hkey
    exact ⟨i, (hits_of_key hi.symm).1 hhit⟩
  · rintro ⟨i, hi⟩
    obtain ⟨j, hj, hji⟩ := exists_kind i
    have hkey : keyOf j ∈ opcodeTable.map rowKey := keys_opcodeTable ▸ List.mem_map_of_mem hj
    obtain ⟨row, hrow, hr⟩ := List.mem_map.1 hkey
    exact ⟨row, hrow, (hits_of_key (hr.trans hji)).2 hi⟩

/-- The decoder accepts the words whose OP is a command's and whose RSV and unused fields are zero (30_encoding.md
R69). -/
theorem exists_decodeFields_iff : (∃ i, decodeFields w = .ok i) ↔
    ∃ i : Instr, fieldOp w = i.opcode ∧ fieldRsv w = 0 ∧ (formatOf i).unusedZero w = true := by
  constructor
  · rintro ⟨i, hi⟩
    obtain rfl := decodeFields_eq_ok.1 hi
    have henc := encodedAs_opcode i
    exact ⟨i, henc.op, henc.rsv, henc.unused⟩
  · rintro ⟨i, hop, hrsv, hunused⟩
    unfold decodeFields
    rw [hop]
    cases i <;> exact ⟨_, acceptWord_eq_ok.2 ⟨hrsv, hunused, rfl⟩⟩

/-- Settles O4: both sides accept the words whose OP, RSV and unused fields are a command's, and NREG enters the decoder
by the register numbers alone. -/
theorem legalWordsAreTheTablesWords : Obligations.LegalWordsAreTheTablesWords := by
  refine fun w => ⟨?_, fun nreg i => ?_⟩
  · simp only [decode_eq_ok, wellFormed_sixteen, and_true, ← decodeFields_eq_ok]
    rw [exists_decodeFields_iff, exists_hit_iff]
  · simp only [decode_eq_ok, wellFormed_sixteen, and_true, wellFormed_iff]

/-- Settles O5: a row keeps the whole OP field, and no two rows have one OP. -/
theorem noWordHitsTwoRows : Obligations.NoWordHitsTwoRows := by
  intro w p q hp hq hpw hqw
  have hop : ∀ row ∈ opcodeTable, fieldOp row.mask = BitVec.allOnes 8 := by decide
  have hdistinct : ∀ p ∈ opcodeTable, ∀ q ∈ opcodeTable, fieldOp p.pattern = fieldOp q.pattern → p = q := by decide
  have hfield {row : OpcodeRow} (hrow : row ∈ opcodeTable) (h : row.hits w = true) :
      fieldOp row.pattern = fieldOp w := by
    rw [← beq_iff_eq.1 h, fieldOp_and, hop row hrow, BitVec.and_allOnes]
  exact hdistinct p hp q hq ((hfield hp hpw).trans (hfield hq hqw).symm)

end Sys2Proof.Proofs
end

section
/-! Runs of the host's list, settling O8 and O51: the byte delivery of a word and the `.hin` directive (30_encoding.md
R61, R74). -/

namespace Sys2Proof.Proofs

open Sys2Proof.Machine Sys2Proof.Safety Sys2Proof.Laws

variable {s t : State} {a : HostAction} {rest : List HostAction}

theorem run_succ {k : Nat} (h : step s = .next t) : Host.Core.run core (k + 1) s = Host.Core.run core k t := by
  have hcore : core.step s = .next t := h
  simp only [Host.Core.run, hcore]

theorem run_one (s : State) : Host.Core.run core 1 s = step s := by
  have hcore : core.step s = step s := rfl
  simp only [Host.Core.run, hcore]
  cases step s <;> rfl

/-- Without a refusal mark a step is what the host table says of the host's next action (60_exceptions.md R174). -/
theorem step_eq_act (hwf : s.cfg.wf = true) (hm : s.refusalMark = none) (hp : s.pending = a :: rest) :
    step s = act a { s with pending := rest } := by
  rw [step_eq_perform hwf hp, perform_eq_act (s := { s with pending := rest }) hm]

theorem leNat_append_singleton (bs : List Byte) (b : Byte) :
    leNat (bs ++ [b]) = leNat bs + 256 ^ bs.length * b.toNat := by
  induction bs with
  | nil => simp [leNat]
  | cons c bs ih =>
    simp only [List.cons_append, leNat, ih, List.length_cons]
    ring

/-- The first `k` bytes of a word, least significant first, make its number modulo 256^k. -/
theorem leNat_bytes_of_word (w : CmdWord) (k : Nat) :
    leNat ((List.range k).map fun b => w.extractLsb' (8 * b) 8) = w.toNat % 256 ^ k := by
  induction k with
  | zero => simp [leNat, Nat.mod_one]
  | succ k ih =>
    rw [List.range_succ, List.map_append, List.map_singleton, leNat_append_singleton, ih, Nat.mod_pow_succ]
    simp [Nat.shiftRight_eq_div_pow, Nat.pow_mul]

theorem bytesWord_wordBytes (w : CmdWord) : bytesWord (wordBytes w) = w := by
  rw [bytesWord, wordBytes, leNat_bytes_of_word]
  apply BitVec.eq_of_toNat_eq
  rw [BitVec.toNat_ofNat, Nat.mod_mod_of_dvd _ (by decide), Nat.mod_eq_of_lt w.isLt]

/-- A delivered byte that is not the last is kept (30_encoding.md R61). -/
theorem step_byte_more {b : Byte} (hwf : s.cfg.wf = true) (hm : s.refusalMark = none)
    (hp : s.pending = .writeCmdByte b :: rest) (hlen : s.delivery.length < 15) :
    step s = .next { s with pending := rest, delivery := s.delivery ++ [b] } := by
  rw [step_eq_act hwf hm hp]
  simp [act, deliverByte, hlen]

/-- The last delivered byte runs the word (30_encoding.md R61). -/
theorem step_byte_last {b : Byte} (hwf : s.cfg.wf = true) (hm : s.refusalMark = none)
    (hp : s.pending = .writeCmdByte b :: rest) (hlen : s.delivery.length = 15) :
    step s = runWord (bytesWord (s.delivery ++ [b])) { s with pending := rest } := by
  rw [step_eq_act hwf hm hp]
  simp [act, deliverByte, hlen]

/-- The bytes that complete a delivery run the delivered word; what was delivered before is dropped by then (log 12,
log 13). -/
theorem run_delivery {bs : List Byte} (hwf : s.cfg.wf = true) (hm : s.refusalMark = none)
    (hp : s.pending = bs.map .writeCmdByte ++ rest) (hlt : s.delivery.length < 16)
    (hlen : s.delivery.length + bs.length = 16) :
    Host.Core.run core bs.length s = runWord (bytesWord (s.delivery ++ bs)) { s with pending := rest } := by
  induction bs generalizing s with
  | nil => exact absurd hlt (by simp at hlen; omega)
  | cons b bs ih =>
    rw [List.length_cons] at hlen ⊢
    by_cases hmore : s.delivery.length < 15
    · have htail := ih (s := { s with pending := bs.map .writeCmdByte ++ rest, delivery := s.delivery ++ [b] }) hwf hm
        rfl (by simp; omega) (by simp; omega)
      rw [List.append_assoc] at htail
      exact (run_succ (step_byte_more hwf hm hp hmore)).trans htail
    · obtain rfl : bs = [] := List.eq_nil_of_length_eq_zero (by omega)
      exact (run_one s).trans (step_byte_last hwf hm hp (by omega))

/-- A whole word runs at once (30_encoding.md R60). -/
theorem step_writeCmd {w : CmdWord} (hwf : s.cfg.wf = true) (hm : s.refusalMark = none) (hd : s.delivery = [])
    (hp : s.pending = .writeCmd w :: rest) : step s = runWord w { s with pending := rest } := by
  rw [step_eq_act hwf hm hp, act, whenIdle_of_idle (by exact hd)]

/-- Settles O8: the sixteen bytes complete a delivery of the word, and a whole write runs it at once. -/
theorem byteDeliveryRunsTheWord : Obligations.ByteDeliveryRunsTheWord := by
  intro s w rest hwf hm hd
  have hdelivered := run_delivery (s := { s with pending := (wordBytes w).map HostAction.writeCmdByte ++ rest }) hwf hm
    rfl (by simp [hd]) (by simp [hd, wordBytes])
  have hwritten := step_writeCmd (s := { s with pending := .writeCmd w :: rest }) hwf hm hd rfl
  have hword : bytesWord (s.delivery ++ wordBytes w) = w := by rw [hd, List.nil_append, bytesWord_wordBytes]
  rw [hword] at hdelivered
  exact hdelivered.trans hwritten.symm

/-- A host write inside HIN stores its bytes (20_memory.md R47). -/
theorem step_writeHin {k : Nat} {bs : List Byte} (hwf : s.cfg.wf = true) (hm : s.refusalMark = none)
    (hd : s.delivery = []) (hp : s.pending = .writeHin k bs :: rest) (hk : k + bs.length ≤ s.cfg.hinCap) :
    step s = .next { s with pending := rest, hin := s.hin.writeBlock k bs } := by
  rw [step_eq_act hwf hm hp, act, whenIdle_of_idle (by exact hd)]
  exact writeHin_eq_next.2 ⟨hk, rfl⟩

/-- A host write of HIN_LEN within HIN_CAP stores it (10_state.md R28). -/
theorem step_writeHinLen {v : BitVec 64} (hwf : s.cfg.wf = true) (hm : s.refusalMark = none) (hd : s.delivery = [])
    (hp : s.pending = .writeHinLen v :: rest) (hv : v.toNat ≤ s.cfg.hinCap) :
    step s = .next { s with pending := rest, hinLen := v } := by
  rw [step_eq_act hwf hm hp, act, whenIdle_of_idle (by exact hd)]
  exact writeHinLen_eq_next.2 ⟨hv, rfl⟩

/-- HIN with a text at index 0 and its length in HIN_LEN holds that text (10_state.md R28). -/
theorem hinText_eq {text : List Byte} (hlen : s.hinLen.toNat = text.length)
    (hread : ∀ k, k < text.length → s.hin.read k = text[k]?) : s.hinText = text := by
  refine List.ext_getElem (by simp [State.hinText, hlen]) fun k _ hk => ?_
  simp [State.hinText, State.hinByteAt, hread k hk, hk]

/-- Settles O51: the first write puts the text at index 0, the second its length, which fits HIN_LEN. -/
theorem hinDirectiveLoadsTheText : Obligations.HinDirectiveLoadsTheText := by
  intro s text rest hwf hm hd hfit hp
  obtain ⟨-, -, -, -, hcap⟩ := config_facts hwf
  have hlen : (BitVec.ofNat 64 text.length).toNat = text.length := Nat.mod_eq_of_lt (by omega)
  have htext := step_writeHin hwf hm hd hp (by simpa using hfit)
  have hsize := step_writeHinLen
    (s := { s with pending := .writeHinLen (BitVec.ofNat 64 text.length) :: rest, hin := s.hin.writeBlock 0 text })
    hwf hm hd rfl (hlen.symm ▸ hfit)
  refine ⟨_, (run_succ htext).trans ((run_one _).trans hsize), hinText_eq hlen fun k hk => ?_, rfl, fun a ha => ?_,
    fun _ => rfl, rfl, keepsOutput_refl s, rfl, rfl⟩
  · simp [read_writeBlock, hk]
  · simp [read_writeBlock, Nat.not_lt.2 ha]

end Sys2Proof.Proofs
end

section
/-! The shifts by bits, settling O30 and O31, and the pseudo-instructions, settling O46 (42_bitwise_shift.md R124, R126;
30_encoding.md R73). -/

namespace Sys2Proof.Proofs

open Sys2Proof.Machine Sys2Proof.Safety Sys2Proof.Laws

variable {n : Nat} {a : Value}

/-- Values with the same bits have one number. -/
theorem val_eq_of_bitAt {m : Nat} (h : ∀ p, bitAt a p = m.testBit p) : val a = m :=
  Nat.eq_of_testBit_eq fun p => by rw [← bitAt_eq_testBit, h p]

theorem bitAt_of_ge {p : Nat} (h : 64 * a.length ≤ p) : bitAt a p = false := by
  rw [bitAt, limbAt_of_ge (by omega)]
  exact BitVec.getLsbD_zero

theorem bitAt_of_limb {p i j : Nat} (hp : p = 64 * i + j) (hj : j < 64) : bitAt a p = (limbAt a i).getLsbD j := by
  rw [bitAt, show p / 64 = i by omega, show p % 64 = j by omega]

@[simp] theorem bitAt_zeroN (n p : Nat) : bitAt (zeroN n) p = false := by
  by_cases h : p / 64 < n
  · rw [bitAt, limbAt_of_lt (by simpa using h)]
    simp [zeroN]
  · exact bitAt_of_ge (by simp; omega)

/-- Bit `j` of two neighbouring limbs shifted left together by `k` (R124). -/
theorem getLsbD_shl_pair (x lo : Limb) {j k : Nat} (hj : j < 64) (hk : k < 64) :
    (shl64 x k ||| shr64 lo (64 - k)).getLsbD j =
      if k ≤ j then x.getLsbD (j - k) else lo.getLsbD (64 - k + j) := by
  unfold shl64 shr64
  by_cases h : k ≤ j
  · have hge : 64 ≤ 64 - k + j := by omega
    simp [h, hj, Nat.not_lt.2 h, hge, BitVec.getLsbD_eq_getElem (show j - k < 64 by omega)]
  · simp [h, hj, Nat.lt_of_not_le h]

/-- Bit `j` of two neighbouring limbs shifted right together by `k` (R126). -/
theorem getLsbD_shr_pair (x hi : Limb) {j k : Nat} (hj : j < 64) (hk : k < 64) :
    (shr64 x k ||| shl64 hi (64 - k)).getLsbD j =
      if k + j < 64 then x.getLsbD (k + j) else hi.getLsbD (k + j - 64) := by
  unfold shl64 shr64
  by_cases h : k + j < 64
  · have hlt : j < 64 - k := by omega
    simp [h, hlt]
  · have hge : ¬ j < 64 - k := by omega
    have e : j - (64 - k) = k + j - 64 := by omega
    simp [h, hj, hge, e, Nat.not_lt.1 h, BitVec.getLsbD_eq_getElem (show k + j - 64 < 64 by omega)]

/-- One limb of the left shift, the whole-limb case as the pair shifted by 0 (R124). -/
theorem limbAt_shlN {s : Nat} (hs : s ≠ 0) (hlt : s < 64 * n) {i : Nat} (hi : i < n) :
    limbAt (shlN n a s) i =
      if i < s / 64 then 0
      else shl64 (limbAt a (i - s / 64)) (s % 64) |||
        shr64 (if s / 64 + 1 ≤ i then limbAt a (i - s / 64 - 1) else 0) (64 - s % 64) := by
  rw [shlN, if_neg hs, if_neg (Nat.not_le.2 hlt), limbAt_map_range _ hi]
  by_cases hb : s % 64 = 0
  · simp [hb, shl64, shr64, BitVec.ushiftRight_eq_zero]
  · simp [hb]

/-- One limb of the right shift, the whole-limb case as the pair shifted by 0 (R126). -/
theorem limbAt_shrN {s : Nat} (ha : a.length = n) (hs : s ≠ 0) (hlt : s < 64 * n) {i : Nat} (hi : i < n) :
    limbAt (shrN n a s) i =
      shr64 (limbAt a (i + s / 64)) (s % 64) ||| shl64 (limbAt a (i + s / 64 + 1)) (64 - s % 64) := by
  have habove (k : Nat) : (if k < n then limbAt a k else 0#64) = limbAt a k := by
    split
    · rfl
    · next h => exact (limbAt_of_ge (by omega)).symm
  rw [shrN, if_neg hs, if_neg (Nat.not_le.2 hlt), limbAt_map_range _ hi]
  simp only [habove]
  by_cases hb : s % 64 = 0
  · simp [hb, shl64, shr64]
  · simp [hb]

/-- The left shift moves bit `p - s` to bit `p` and clears the bits below `s` (R124). -/
theorem bitAt_shlN (ha : a.length = n) (s p : Nat) :
    bitAt (shlN n a s) p = (decide (p < 64 * n) && decide (s ≤ p) && bitAt a (p - s)) := by
  obtain hp | hp := le_or_gt (64 * n) p
  · rw [bitAt_of_ge (by rwa [length_shlN ha])]
    simp [Nat.not_lt.2 hp]
  by_cases hs : s = 0
  · simp [hs, shlN, hp]
  obtain hge | hlt := le_or_gt (64 * n) s
  · have hout : ¬ s ≤ p := by omega
    simp [shlN, hs, hge, hout]
  rw [bitAt, limbAt_shlN hs hlt (by omega)]
  by_cases hlow : p / 64 < s / 64
  · have hout : ¬ s ≤ p := by omega
    simp [hlow, hout]
  rw [if_neg hlow, getLsbD_shl_pair _ _ (by omega) (by omega)]
  by_cases hk : s % 64 ≤ p % 64
  · rw [if_pos hk, bitAt_of_limb (i := p / 64 - s / 64) (j := p % 64 - s % 64) (by omega) (by omega)]
    have hin : s ≤ p := by omega
    simp [hp, hin]
  rw [if_neg hk]
  by_cases hi : s / 64 + 1 ≤ p / 64
  · rw [if_pos hi, bitAt_of_limb (i := p / 64 - s / 64 - 1) (j := 64 - s % 64 + p % 64) (by omega) (by omega)]
    have hin : s ≤ p := by omega
    simp [hp, hin]
  · have hout : ¬ s ≤ p := by omega
    simp [hi, hout]

/-- The right shift moves bit `p + s` to bit `p`, zeros coming in from above the value (R126). -/
theorem bitAt_shrN (ha : a.length = n) (s p : Nat) : bitAt (shrN n a s) p = bitAt a (p + s) := by
  obtain hp | hp := le_or_gt (64 * n) p
  · rw [bitAt_of_ge (by rwa [length_shrN ha]), bitAt_of_ge (by omega)]
  by_cases hs : s = 0
  · simp [hs, shrN]
  obtain hge | hlt := le_or_gt (64 * n) s
  · rw [bitAt_of_ge (a := a) (by omega)]
    simp [shrN, hs, hge]
  rw [bitAt, limbAt_shrN ha hs hlt (by omega), getLsbD_shr_pair _ _ (by omega) (by omega)]
  split
  · rw [bitAt_of_limb (i := p / 64 + s / 64) (j := s % 64 + p % 64) (by omega) (by omega)]
  · rw [bitAt_of_limb (i := p / 64 + s / 64 + 1) (j := s % 64 + p % 64 - 64) (by omega) (by omega)]

/-- The value law of the left shift (R128). -/
theorem val_shlN (ha : a.length = n) (s : Nat) : val (shlN n a s) = val a * 2 ^ s % 2 ^ (64 * n) := by
  refine val_eq_of_bitAt fun p => ?_
  rw [bitAt_shlN ha, bitAt_eq_testBit, Nat.testBit_mod_two_pow, Nat.testBit_mul_two_pow, Bool.and_assoc]

/-- The value law of the right shift (R128). -/
theorem val_shrN (ha : a.length = n) (s : Nat) : val (shrN n a s) = val a / 2 ^ s := by
  refine val_eq_of_bitAt fun p => ?_
  rw [bitAt_shrN ha, bitAt_eq_testBit, Nat.testBit_div_two_pow]

/-- Settles O30: SHL is format DSI at the left shift, whose value law holds for every amount. -/
theorem shlShiftsLeftByAnyAmount : Obligations.ShlShiftsLeftByAnyAmount := by
  intro s rd rs1 imm hi hw
  obtain ⟨t, ht, hr⟩ := formatDSI_spec shlN rd rs1 imm hw
  have hlen := length_value hi rs1
  exact ⟨encodedAs_opcode _, fieldImm_packWord _ _ _ _ _, t, _, ht, hr, length_shlN hlen _, val_shlN hlen _⟩

/-- Settles O31: SHR is format DSI at the right shift, whose value law holds for every amount. -/
theorem shrShiftsRightByAnyAmount : Obligations.ShrShiftsRightByAnyAmount := by
  intro s rd rs1 imm hi hw
  obtain ⟨t, ht, hr⟩ := formatDSI_spec shrN rd rs1 imm hw
  have hlen := length_value hi rs1
  exact ⟨encodedAs_opcode _, fieldImm_packWord _ _ _ _ _, t, _, ht, hr, length_shrN hlen _, val_shrN hlen _⟩

theorem orN_self (ha : a.length = n) : orN n a a = a := by
  refine eq_of_limbAt_eq (by simp [orN, ha]) fun i hi => ?_
  rw [orN, limbwise, limbAt_map_range _ (by simpa [orN] using hi), BitVec.or_self]

/-- Settles O46: `mov` is OR of a value with itself, and the other three are their commands' own functions. -/
theorem pseudoInstructionsAreExact : Obligations.PseudoInstructionsAreExact := by
  intro s vd vs imm hi
  refine ⟨fun hw => ?_, formatDI_spec fromNatN vd imm s, formatD_spec zeroN vd s, fun hw => ?_⟩
  · have h := formatDST_spec orN vd vs vs (s := s) (by simp [hw])
    rwa [orN_self (length_value hi vs)] at h
  · exact formatDST_spec mulN vd vs vs (s := s) (by simp [hw])

end Sys2Proof.Proofs
end

section
/-! The constructors and FROMHEX, settling O12 to O16 (40_construction.md R80 to R83, R89): the limbs of each constant,
and the two ways FROMHEX completes. -/

namespace Sys2Proof.Proofs

open Sys2Proof.Machine Sys2Proof.Safety Sys2Proof.Laws

variable {n i : Nat}

theorem limbAt_replicate (x : Limb) (h : i < n) : limbAt (List.replicate n x) i = x := by
  rw [limbAt_of_lt (by simpa using h), List.getElem_replicate]

/-- A native value stands in limb 0 alone (R82). -/
theorem limbAt_fromNatN (v : BitVec 64) (h : i < n) : limbAt (fromNatN n v) i = if i = 0 then v else 0 :=
  limbAt_map_range _ h

/-- The number above the all-ones value is the first that N limbs do not hold (R83). -/
theorem val_maxN_add_one (n : Nat) : val (maxN n) + 1 = 2 ^ (64 * n) := by
  induction n with
  | zero => rfl
  | succ n ih =>
    have hcons : val (maxN (n + 1)) = (2 ^ 64 - 1) + 2 ^ 64 * val (maxN n) := rfl
    rw [hcons, Nat.mul_succ, Nat.add_comm (64 * n), Nat.pow_add, ← ih]
    omega

/-- Settles O12: ZERO is format D at the value of zero limbs. -/
theorem zeroWritesZeroLimbs : Obligations.ZeroWritesZeroLimbs := by
  intro s rd
  obtain ⟨t, ht, hr⟩ := formatD_spec zeroN rd s
  exact ⟨encodedAs_opcode _, t, _, ht, hr, length_zeroN _, fun i hi => limbAt_replicate _ hi⟩

/-- Settles O13: ONE is format D at the native value 1. -/
theorem oneWritesOne : Obligations.OneWritesOne := by
  intro s rd
  obtain ⟨t, ht, hr⟩ := formatD_spec oneN rd s
  exact ⟨encodedAs_opcode _, t, _, ht, hr, length_oneN _, fun i hi => limbAt_fromNatN 1 hi⟩

/-- Settles O14: FROMNAT is format DI at the native value of its immediate. -/
theorem fromnatWritesTheNativeValue : Obligations.FromnatWritesTheNativeValue := by
  intro s rd imm
  obtain ⟨t, ht, hr⟩ := formatDI_spec fromNatN rd imm s
  exact ⟨encodedAs_opcode _, fieldImm_packWord _ _ _ _ _, t, _, ht, hr, length_fromNatN _ _,
    fun i hi => limbAt_fromNatN imm hi⟩

/-- Settles O15: MAX is format D at the value of all-ones limbs, one below 2^(64·N). -/
theorem maxWritesAllOnes : Obligations.MaxWritesAllOnes := by
  intro s rd
  obtain ⟨t, ht, hr⟩ := formatD_spec maxN rd s
  exact ⟨encodedAs_opcode _, t, _, ht, hr, length_maxN _, fun i hi => limbAt_replicate _ hi,
    Nat.eq_sub_of_add_eq (val_maxN_add_one _)⟩

/-- `raiseStatus` is an error's whole effect (00_scope.md R13). -/
theorem onlyStatus_raiseStatus (c : StatusCode) (s : State) : OnlyStatus c s (s.raiseStatus c) :=
  ⟨rfl, fun _ => rfl, rfl, keepsInput_refl s, keepsOutput_refl s, ⟨rfl, rfl, rfl, rfl, rfl, rfl, rfl, rfl⟩⟩

/-- Settles O16: FROMHEX reads no register, and the parse decides between a result and an error's code. -/
theorem fromhexWritesTheParseOrReportsItsError : Obligations.FromhexWritesTheParseOrReportsItsError := by
  intro s rd
  refine ⟨encodedAs_opcode _, _, exec_of_written (i := .fromhex rd) (by simp [SourcesWritten, Instr.sources]),
    fun v hv => ?_, fun e he => ?_⟩
  · simpa only [effect, hv] using writesResult_writeResult rd v s
  · simpa only [effect, he] using onlyStatus_raiseStatus e.code s

end Sys2Proof.Proofs
end

section
/-! The hex parser, settling O17 to O20 (40_construction.md R84 to R90): the characters, the outcome under each
PARSE_ERROR_ORDER, and the number of a text that parses. -/

namespace Sys2Proof.Proofs

open Sys2Proof.Machine Sys2Proof.Laws

variable {n : Nat} {s t : List Byte}

theorem isHex_iff (b : Byte) : isHex b = true ↔
    (0x30 ≤ b.toNat ∧ b.toNat ≤ 0x39) ∨ (0x41 ≤ b.toNat ∧ b.toNat ≤ 0x46) ∨ (0x61 ≤ b.toNat ∧ b.toNat ≤ 0x66) := by
  simp [isHex, BitVec.le_def, or_assoc]

/-- `hexval` with its range tests on numbers (R84). -/
theorem hexval_eq (b : Byte) : hexval b =
    if b.toNat ≤ 0x39 then b.toNat - 0x30 else if b.toNat ≤ 0x46 then b.toNat - 0x37 else b.toNat - 0x57 := by
  simp only [hexval, BitVec.le_def]
  rfl

theorem stripHexPrefix_of_prefix (h : s = 0x30#8 :: 0x78#8 :: t ∨ s = 0x30#8 :: 0x58#8 :: t) :
    stripHexPrefix s = t := by
  obtain rfl | rfl := h <;> rfl

theorem stripHexPrefix_of_no_prefix
    (h : ∀ t, s ≠ 0x30#8 :: 0x78#8 :: t ∧ s ≠ 0x30#8 :: 0x58#8 :: t) : stripHexPrefix s = s := by
  unfold stripHexPrefix
  split
  · next a b t =>
    refine if_neg ?_
    rintro ⟨rfl, rfl | rfl⟩
    · exact (h t).1 rfl
    · exact (h t).2 rfl
  · rfl

/-- Settles O17: the three ranges of digit codes exclude each other, and only the first two bytes decide what is stripped. -/
theorem hexTextIsReadByTheAsciiCodes : Obligations.HexTextIsReadByTheAsciiCodes := by
  refine ⟨fun b => ⟨isHex_iff b, fun h => ?_, fun h => ?_, fun h => ?_⟩,
    fun s => ⟨fun t => stripHexPrefix_of_prefix, stripHexPrefix_of_no_prefix⟩⟩
  · rw [hexval_eq, if_pos h.2]
  · rw [hexval_eq, if_neg (by omega), if_pos h.2]
  · rw [hexval_eq, if_neg (by omega), if_neg (by omega)]

/-- More than N chunks are more than 16·N characters (R86). -/
theorem lt_chunkCount_iff {lt : Nat} : n < chunkCount lt ↔ 16 * n < lt := by
  unfold chunkCount
  omega

theorem any_not_isHex : (t.any fun b => !isHex b) = true ↔ ∃ b ∈ t, isHex b = false := by
  simp

theorem parseHex_lengthFirst (n : Nat) (s : List Byte) : parseHex n .lengthFirst s =
    if 16 * n < (stripHexPrefix s).length then .error .tooManyLimbs
    else if ∃ b ∈ stripHexPrefix s, isHex b = false then .error .invalidHexDigit
    else .ok (parseLimbs n (stripHexPrefix s)) := by
  simp only [parseHex, parseFault, decide_eq_true_eq, lt_chunkCount_iff, any_not_isHex]
  split_ifs <;> rfl

theorem parseHex_digitsFirst (n : Nat) (s : List Byte) : parseHex n .digitsFirst s =
    if ∃ b ∈ stripHexPrefix s, isHex b = false then .error .invalidHexDigit
    else if 16 * n < (stripHexPrefix s).length then .error .tooManyLimbs
    else .ok (parseLimbs n (stripHexPrefix s)) := by
  simp only [parseHex, parseFault, decide_eq_true_eq, lt_chunkCount_iff, any_not_isHex]
  split_ifs <;> rfl

theorem parseHex_chunkwise (n : Nat) (s : List Byte) : parseHex n .chunkwise s =
    if ∃ b ∈ (stripHexPrefix s).drop ((stripHexPrefix s).length - 16 * n), isHex b = false then .error .invalidHexDigit
    else if 16 * n < (stripHexPrefix s).length then .error .tooManyLimbs
    else .ok (parseLimbs n (stripHexPrefix s)) := by
  simp only [parseHex, parseFault, decide_eq_true_eq, lt_chunkCount_iff, any_not_isHex]
  split_ifs <;> rfl

/-- Settles O19, one order after the other. -/
theorem parseErrorsFollowTheOrder : Obligations.ParseErrorsFollowTheOrder := by
  rintro n s t rfl
  exact ⟨parseHex_lengthFirst n s, parseHex_digitsFirst n s, parseHex_chunkwise n s⟩

/-- On a text that fits, the digits decide, whatever the order: its rightmost 16·N characters are all of it. -/
theorem parseHex_of_fits (h : (stripHexPrefix s).length ≤ 16 * n) (order : ParseErrorOrder) :
    parseHex n order s = if ∃ b ∈ stripHexPrefix s, isHex b = false then .error .invalidHexDigit
      else .ok (parseLimbs n (stripHexPrefix s)) := by
  have hlong : ¬ 16 * n < (stripHexPrefix s).length := Nat.not_lt.2 h
  cases order with
  | lengthFirst => rw [parseHex_lengthFirst, if_neg hlong]
  | digitsFirst => rw [parseHex_digitsFirst, if_neg hlong]
  | chunkwise => rw [parseHex_chunkwise, if_neg hlong, Nat.sub_eq_zero_of_le h, List.drop_zero]

/-- On a text of digits, the length decides, whatever the order. -/
theorem parseHex_of_digits (h : ¬ ∃ b ∈ stripHexPrefix s, isHex b = false) (order : ParseErrorOrder) :
    parseHex n order s = if 16 * n < (stripHexPrefix s).length then .error .tooManyLimbs
      else .ok (parseLimbs n (stripHexPrefix s)) := by
  cases order with
  | lengthFirst => rw [parseHex_lengthFirst, if_neg h]
  | digitsFirst => rw [parseHex_digitsFirst, if_neg h]
  | chunkwise =>
    rw [parseHex_chunkwise, if_neg fun ⟨b, hb, hd⟩ => h ⟨b, List.mem_of_mem_drop hb, hd⟩]

/-- Settles O20: a text that fits is judged by its digits, and one of digits by its length, under every order. -/
theorem ordersAgreeUnlessLongAndInvalid : Obligations.OrdersAgreeUnlessLongAndInvalid := by
  intro n p q s h
  by_cases hlong : 16 * n < (stripHexPrefix s).length
  · have hdigits : ¬ ∃ b ∈ stripHexPrefix s, isHex b = false := fun hd => h ⟨hlong, hd⟩
    rw [parseHex_of_digits hdigits p, parseHex_of_digits hdigits q]
  · have hfits := Nat.not_lt.1 hlong
    rw [parseHex_of_fits hfits p, parseHex_of_fits hfits q]

/-- A parse that succeeds met no error under its order: the text fits and all of it is digits (R88). -/
theorem fits_and_digits_of_parseHex {order : ParseErrorOrder} {v : Value} (h : parseHex n order s = .ok v) :
    (stripHexPrefix s).length ≤ 16 * n ∧ (∀ b ∈ stripHexPrefix s, isHex b = true) ∧
      v = parseLimbs n (stripHexPrefix s) := by
  have hfits : (stripHexPrefix s).length ≤ 16 * n := by
    cases order with
    | lengthFirst => rw [parseHex_lengthFirst] at h; split_ifs at h; omega
    | digitsFirst => rw [parseHex_digitsFirst] at h; split_ifs at h; omega
    | chunkwise => rw [parseHex_chunkwise] at h; split_ifs at h; omega
  rw [parseHex_of_fits hfits] at h
  split_ifs at h with hbad
  cases h
  exact ⟨hfits, fun b hb => by simpa using fun hd => hbad ⟨b, hb, hd⟩, rfl⟩

/-- The chunks above chunk 0 are the chunks of the text without its last 16 characters (R86). -/
theorem chunk_succ (t : List Byte) (k : Nat) : chunk t (k + 1) = chunk (t.take (t.length - 16)) k := by
  unfold chunk
  rw [List.length_take, List.take_take]
  congr 1
  · omega
  · congr 1; omega

theorem parseLimbs_succ (n : Nat) (t : List Byte) : parseLimbs (n + 1) t =
    BitVec.ofNat 64 (hexNumeral (t.drop (t.length - 16))) :: parseLimbs n (t.take (t.length - 16)) := by
  unfold parseLimbs
  rw [List.range_succ_eq_map, List.map_cons, List.map_map]
  congr 1
  · simp [chunk]
  · exact List.map_congr_left fun k _ => by simp [chunk_succ]

/-- A text is its part before the last 16 characters, in units of 2^64, and these (R90). -/
theorem hexNumeral_split (t : List Byte) :
    hexNumeral t = hexNumeral (t.drop (t.length - 16)) + 2 ^ 64 * hexNumeral (t.take (t.length - 16)) := by
  conv_lhs => rw [← List.take_append_drop (t.length - 16) t, hexNumeral_append]
  obtain hshort | hlong := Nat.le_total t.length 16
  · simp [Nat.sub_eq_zero_of_le hshort, hexNumeral]
  · rw [List.length_drop, Nat.sub_sub_self hlong]
    omega

/-- At most 16 digits fit a limb. -/
theorem hexNumeral_lt_limb (hd : ∀ b ∈ t, isHex b = true) (hlen : t.length ≤ 16) : hexNumeral t < 2 ^ 64 :=
  calc hexNumeral t < 16 ^ t.length := hexNumeral_lt hd
    _ ≤ 16 ^ 16 := Nat.pow_le_pow_right (by decide) hlen
    _ = 2 ^ 64 := by decide

/-- The chunks tile the text from the right, so the limbs are its numeral (R90). -/
theorem val_parseLimbs (hd : ∀ b ∈ t, isHex b = true) (hlen : t.length ≤ 16 * n) :
    val (parseLimbs n t) = hexNumeral t := by
  induction n generalizing t with
  | zero =>
    obtain rfl : t = [] := List.length_eq_zero_iff.1 (by omega)
    rfl
  | succ n ih =>
    have hlow : hexNumeral (t.drop (t.length - 16)) < 2 ^ 64 :=
      hexNumeral_lt_limb (fun b hb => hd b (List.mem_of_mem_drop hb)) (by simp; omega)
    have hhigh := ih (t := t.take (t.length - 16)) (fun b hb => hd b (List.mem_of_mem_take hb)) (by simp; omega)
    rw [parseLimbs_succ, val_cons, hhigh, BitVec.toNat_ofNat, Nat.mod_eq_of_lt hlow, ← hexNumeral_split]

/-- Settles O18: a text that parses fits and is all digits, and its limbs are its numeral. -/
theorem parsedValueIsTheHexNumeral : Obligations.ParsedValueIsTheHexNumeral := by
  intro n order s v h
  obtain ⟨hfits, hdigits, rfl⟩ := fits_and_digits_of_parseHex h
  exact ⟨length_parseLimbs n _, val_parseLimbs hdigits hfits⟩

end Sys2Proof.Proofs
end

section
/-! SUPPORT. The adder and the subtractor as one ripple (41_arithmetic.md R100, R102): the carry or borrow into each
limb, each limb of the result, and its number, exactly. -/

namespace Sys2Proof.Proofs

open Sys2Proof.Machine Sys2Proof.Safety Sys2Proof.Laws

variable {f : Limb → Limb → Bool → Limb × Bool}

/-- A ripple over the limbs of two values at any limb function: its flag is the carry or the borrow. -/
def ripple (f : Limb → Limb → Bool → Limb × Bool) : Value → Value → Bool → Value
  | x :: xs, y :: ys, c => (f x y c).1 :: ripple f xs ys (f x y c).2
  | _, _, _ => []

theorem addRipple_eq_ripple (a b : Value) (c : Bool) : addRipple a b c = ripple addLimb a b c := by
  induction a generalizing b c with
  | nil => cases b <;> rfl
  | cons x xs ih =>
    cases b with
    | nil => rfl
    | cons y ys => rw [addRipple, ripple, ih]

theorem subRipple_eq_ripple (a b : Value) (c : Bool) : subRipple a b c = ripple subLimb a b c := by
  induction a generalizing b c with
  | nil => cases b <;> rfl
  | cons x xs ih =>
    cases b with
    | nil => rfl
    | cons y ys => rw [subRipple, ripple, ih]

/-- The flag a ripple carries into limb `i`, from the flag `c` into limb 0. -/
def flagInto (f : Limb → Limb → Bool → Limb × Bool) (a b : Value) (c : Bool) : Nat → Bool
  | 0 => c
  | i + 1 => (f (limbAt a i) (limbAt b i) (flagInto f a b c i)).2

/-- Above limb 0 a ripple is the ripple of the upper limbs from the flag out of limb 0. -/
theorem flagInto_cons_succ (x y : Limb) (xs ys : Value) (c : Bool) (i : Nat) :
    flagInto f (x :: xs) (y :: ys) c (i + 1) = flagInto f xs ys (f x y c).2 i := by
  induction i with
  | zero => simp [flagInto]
  | succ i ih => rw [flagInto, ih, limbAt_cons_succ, limbAt_cons_succ, flagInto]

/-- Each limb of a ripple is the limb function of the two limbs and the flag into them. -/
theorem limbAt_ripple {a b : Value} (hl : a.length = b.length) (c : Bool) {i : Nat} (hi : i < a.length) :
    limbAt (ripple f a b c) i = (f (limbAt a i) (limbAt b i) (flagInto f a b c i)).1 := by
  induction a generalizing b c i with
  | nil => cases hi
  | cons x xs ih =>
    cases b with
    | nil => cases hl
    | cons y ys =>
      cases i with
      | zero => simp [ripple, flagInto]
      | succ i =>
        rw [ripple, flagInto_cons_succ]
        simpa using ih (Nat.succ.inj hl) (f x y c).2 (Nat.lt_of_succ_lt_succ hi)

/-- The limb function is exact: its limb is the first operand plus or minus the second operand and the flag into it,
and its flag makes up for the wraparound. The sign `σ` is 1 for the adder and -1 for the subtractor. -/
def LimbExact (σ : ℤ) (f : Limb → Limb → Bool → Limb × Bool) : Prop :=
  ∀ x y c, ((f x y c).1.toNat : ℤ) = x.toNat + σ * (y.toNat + c.toNat - 2 ^ 64 * (f x y c).2.toNat)

/-- The adder's limb is exact (R100). -/
theorem limbExact_addLimb : LimbExact 1 addLimb := by
  intro x y c
  have := addLimb_spec x y c
  omega

/-- The subtractor's limb is exact (R102). -/
theorem limbExact_subLimb : LimbExact (-1) subLimb := by
  intro x y c
  have := subLimb_spec x y c
  omega

/-- A ripple of exact limbs is exact: the flag out of the last limb counts 2^(64·N). -/
theorem val_ripple {σ : ℤ} (hf : LimbExact σ f) {a b : Value} (hl : a.length = b.length) (c : Bool) :
    (val (ripple f a b c) : ℤ) =
      val a + σ * (val b + c.toNat - 2 ^ (64 * a.length) * (flagInto f a b c a.length).toNat) := by
  induction a generalizing b c with
  | nil =>
    cases b with
    | nil => simp [ripple, flagInto]
    | cons y ys => cases hl
  | cons x xs ih =>
    cases b with
    | nil => cases hl
    | cons y ys =>
      have hlimb := hf x y c
      have hrest := ih (Nat.succ.inj hl) (f x y c).2
      rw [ripple, List.length_cons, flagInto_cons_succ]
      simp only [val_cons, Nat.mul_succ, pow_add]
      push_cast
      linear_combination hlimb + 2 ^ 64 * hrest

end Sys2Proof.Proofs
end

section
/-! The ripples limb by limb, settling O24 and O25 (41_arithmetic.md R100, R102): the flag into each limb is the carry
or the borrow. -/

namespace Sys2Proof.Proofs

open Sys2Proof.Machine Sys2Proof.Safety Sys2Proof.Laws

/-- The sum limb is the sum modulo 2^64, and the carry is set exactly when the sum reaches 2^64 (R100). -/
theorem addLimb_wraps (x y : Limb) (c : Bool) :
    (addLimb x y c).1.toNat = (x.toNat + y.toNat + c.toNat) % 2 ^ 64 ∧
      ((addLimb x y c).2.toNat = 1 ↔ 2 ^ 64 ≤ x.toNat + y.toNat + c.toNat) := by
  have hsum := addLimb_spec x y c
  have hlimb := (addLimb x y c).1.isLt
  have hout := (addLimb x y c).2.toNat_le
  omega

/-- The difference limb is the difference modulo 2^64, and the borrow is set exactly when it was needed (R102). -/
theorem subLimb_wraps (x y : Limb) (c : Bool) :
    (subLimb x y c).1.toNat = (x.toNat + 2 ^ 64 - y.toNat + (2 ^ 64 - c.toNat)) % 2 ^ 64 ∧
      ((subLimb x y c).2.toNat = 1 ↔ x.toNat < y.toNat + c.toNat) := by
  have hdiff := subLimb_spec x y c
  have hlimb := (subLimb x y c).1.isLt
  have hout := (subLimb x y c).2.toNat_le
  have hin := c.toNat_le
  have hy := y.isLt
  omega

/-- Settles O24: the carries are the flags of the ripple from no carry. -/
theorem adderRipplesTheCarry : Obligations.AdderRipplesTheCarry := by
  rintro n a b rfl hb
  refine ⟨fun i => (flagInto addLimb a b false i).toNat, rfl, fun i hi => ⟨Bool.toNat_le _, ?_⟩⟩
  rw [addN, addRipple_eq_ripple, limbAt_ripple hb.symm _ hi]
  exact addLimb_wraps _ _ _

/-- Settles O25: the borrows are the flags of the ripple from no borrow. -/
theorem subtractorRipplesTheBorrow : Obligations.SubtractorRipplesTheBorrow := by
  rintro n a b rfl hb
  refine ⟨fun i => (flagInto subLimb a b false i).toNat, rfl, fun i hi => ⟨Bool.toNat_le _, ?_⟩⟩
  rw [subN, subRipple_eq_ripple, limbAt_ripple hb.symm _ hi]
  exact subLimb_wraps _ _ _

end Sys2Proof.Proofs
end

section
/-! SUPPORT. Values as residues modulo 2^(64·N): the arithmetic engine is the ring of these residues (41_arithmetic.md
R107), and N limbs are determined by theirs. -/

namespace Sys2Proof.Proofs

open Sys2Proof.Machine Sys2Proof.Safety Sys2Proof.Laws

variable {n : Nat} {a b : Value}

/-- The number of a value modulo 2^(64·N). -/
def residue (n : Nat) (v : Value) : ZMod (2 ^ (64 * n)) := (val v : ZMod (2 ^ (64 * n)))

theorem two_pow_eq_zero (n : Nat) : (2 : ZMod (2 ^ (64 * n))) ^ (64 * n) = 0 := by
  exact_mod_cast ZMod.natCast_self (2 ^ (64 * n))

theorem val_lt_of_length (ha : a.length = n) : val a < 2 ^ (64 * n) := ha ▸ val_lt a

/-- A value of N limbs has the number of its residue. -/
theorem val_eq_mod_of_residue (ha : a.length = n) {m : Nat} (h : residue n a = (m : ZMod (2 ^ (64 * n)))) :
    val a = m % 2 ^ (64 * n) := by
  rw [← (ZMod.natCast_eq_natCast_iff' _ _ _).1 h, Nat.mod_eq_of_lt (val_lt_of_length ha)]

/-- Values of N limbs with one residue are equal. -/
theorem eq_of_residue_eq (ha : a.length = n) (hb : b.length = n) (h : residue n a = residue n b) : a = b := by
  refine eq_of_val_eq (ha.trans hb.symm) ?_
  rw [val_eq_mod_of_residue ha h, Nat.mod_eq_of_lt (val_lt_of_length hb)]

theorem length_addN (ha : a.length = n) (hb : b.length = n) : (addN n a b).length = n :=
  (length_addRipple a b false (ha.trans hb.symm)).trans ha

theorem length_subN (ha : a.length = n) (hb : b.length = n) : (subN n a b).length = n :=
  (length_subRipple a b false (ha.trans hb.symm)).trans ha

/-- A ripple of exact limbs adds or subtracts residues: the flag out of the last limb vanishes. -/
theorem residue_ripple {f : Limb → Limb → Bool → Limb × Bool} {σ : ℤ} (hf : LimbExact σ f) (ha : a.length = n)
    (hb : b.length = n) :
    residue n (ripple f a b false) = residue n a + σ * residue n b := by
  have h := congrArg (Int.cast : ℤ → ZMod (2 ^ (64 * n))) (val_ripple hf (ha.trans hb.symm) false)
  rw [ha] at h
  simpa [residue, two_pow_eq_zero] using h

theorem residue_addN (ha : a.length = n) (hb : b.length = n) :
    residue n (addN n a b) = residue n a + residue n b := by
  simpa [addN, addRipple_eq_ripple] using residue_ripple limbExact_addLimb ha hb

theorem residue_subN (ha : a.length = n) (hb : b.length = n) :
    residue n (subN n a b) = residue n a - residue n b := by
  simpa [subN, subRipple_eq_ripple, sub_eq_add_neg] using residue_ripple limbExact_subLimb ha hb

@[simp] theorem residue_mulN (n : Nat) (a b : Value) : residue n (mulN n a b) = residue n a * residue n b := by
  rw [residue, mulN, val_limbsOf, ZMod.natCast_mod, Nat.cast_mul, residue, residue]

theorem residue_shlN (ha : a.length = n) (s : Nat) : residue n (shlN n a s) = residue n a * 2 ^ s := by
  rw [residue, val_shlN ha, ZMod.natCast_mod, Nat.cast_mul, Nat.cast_pow, Nat.cast_ofNat, residue]

theorem val_zeroN (n : Nat) : val (zeroN n) = 0 :=
  val_eq_of_bitAt fun p => by rw [bitAt_zeroN, Nat.zero_testBit]

@[simp] theorem residue_zeroN (n : Nat) : residue n (zeroN n) = 0 := by
  rw [residue, val_zeroN, Nat.cast_zero]

end Sys2Proof.Proofs
end

section
/-! ADD, SUB and MUL, settling O21 to O23 and O28 (41_arithmetic.md R101, R103, R106, R108): the value laws and the ring
laws are those of the residues. -/

namespace Sys2Proof.Proofs

open Sys2Proof.Machine Sys2Proof.Safety Sys2Proof.Laws

variable {n : Nat} {a b : Value}

/-- The value law of the adder (R100). -/
theorem val_addN (ha : a.length = n) (hb : b.length = n) : val (addN n a b) = (val a + val b) % 2 ^ (64 * n) := by
  refine val_eq_mod_of_residue (length_addN ha hb) ?_
  rw [residue_addN ha hb, Nat.cast_add, residue, residue]

/-- The value law of the subtractor, its remainder non-negative (R102). -/
theorem val_subN (ha : a.length = n) (hb : b.length = n) :
    (val (subN n a b) : ℤ) = ((val a : ℤ) - (val b : ℤ)) % (2 ^ (64 * n) : ℤ) := by
  have hmod : ((val (subN n a b) : ℤ) : ZMod (2 ^ (64 * n))) = ((val a - val b : ℤ) : ZMod (2 ^ (64 * n))) := by
    push_cast
    exact residue_subN ha hb
  have hlt : (val (subN n a b) : ℤ) < 2 ^ (64 * n) := by exact_mod_cast val_lt_of_length (length_subN ha hb)
  have heq := (ZMod.intCast_eq_intCast_iff' _ _ _).1 hmod
  rw [Nat.cast_pow, Nat.cast_ofNat] at heq
  rw [← heq, Int.emod_eq_of_lt (Int.natCast_nonneg _) hlt]

/-- Settles O21: ADD is format DST at the adder, whose value law holds for all values of N limbs. -/
theorem addWritesTheWrappedSum : Obligations.AddWritesTheWrappedSum := by
  intro s rd rs1 rs2 hi hw
  obtain ⟨t, ht, hr⟩ := formatDST_spec addN rd rs1 rs2 hw
  have ha := length_value hi rs1
  have hb := length_value hi rs2
  exact ⟨encodedAs_opcode _, t, _, ht, hr, length_addN ha hb, val_addN ha hb⟩

/-- Settles O22: SUB is format DST at the subtractor, whose value law holds for all values of N limbs. -/
theorem subWritesTheWrappedDifference : Obligations.SubWritesTheWrappedDifference := by
  intro s rd rs1 rs2 hi hw
  obtain ⟨t, ht, hr⟩ := formatDST_spec subN rd rs1 rs2 hw
  have ha := length_value hi rs1
  have hb := length_value hi rs2
  exact ⟨encodedAs_opcode _, t, _, ht, hr, length_subN ha hb, val_subN ha hb⟩

/-- Settles O23: MUL is format DST at the product's limbs. -/
theorem mulWritesTheLowProduct : Obligations.MulWritesTheLowProduct := by
  intro s rd rs1 rs2 hw
  obtain ⟨t, ht, hr⟩ := formatDST_spec mulN rd rs1 rs2 hw
  exact ⟨encodedAs_opcode _, t, _, ht, hr, length_mulN _ _ _, val_limbsOf _ _⟩

/-- Settles O28: both sides of each law have N limbs, and their residues agree by the laws of a commutative ring. -/
theorem arithmeticObeysTheRingLaws : Obligations.ArithmeticObeysTheRingLaws := by
  intro n a b c ha hb hc
  have hz := length_zeroN n
  have hab := length_addN ha hb
  have hbc := length_addN hb hc
  have hneg := length_subN hz ha
  have hmab := length_mulN n a b
  have hmac := length_mulN n a c
  refine ⟨eq_of_residue_eq hab (length_addN hb ha) ?_,
    eq_of_residue_eq (length_addN hab hc) (length_addN ha hbc) ?_,
    eq_of_residue_eq (length_subN hab hb) ha ?_,
    eq_of_residue_eq (length_addN ha hneg) hz ?_,
    eq_of_residue_eq hmab (length_mulN n b a) ?_,
    eq_of_residue_eq (length_mulN n _ c) (length_mulN n a _) ?_,
    eq_of_residue_eq (length_mulN n a _) (length_addN hmab hmac) ?_⟩
  · rw [residue_addN ha hb, residue_addN hb ha, add_comm]
  · rw [residue_addN hab hc, residue_addN ha hb, residue_addN ha hbc, residue_addN hb hc, add_assoc]
  · rw [residue_subN hab hb, residue_addN ha hb, add_sub_cancel_right]
  · rw [residue_addN ha hneg, residue_subN hz ha, residue_zeroN, zero_sub, add_neg_cancel]
  · rw [residue_mulN, residue_mulN, mul_comm (residue n a)]
  · simp only [residue_mulN, mul_assoc]
  · rw [residue_addN hmab hmac, residue_mulN, residue_mulN, residue_mulN, residue_addN hb hc, mul_add]

end Sys2Proof.Proofs
end

section
/-! The two multiplier algorithms, settling O26 and O27 (41_arithmetic.md R104, R105): both give the limbs of the
product. -/

namespace Sys2Proof.Proofs

open Sys2Proof.Machine Sys2Proof.Safety Sys2Proof.Laws

variable {n : Nat} {a : Value}

theorem length_mulShiftAddUpTo (ha : a.length = n) (b : Value) (k : Nat) : (mulShiftAddUpTo n a b k).length = n := by
  induction k with
  | zero => exact length_zeroN n
  | succ k ih =>
    rw [mulShiftAddUpTo]
    split
    · exact length_addN ih (length_shlN ha k)
    · exact ih

/-- The loop's invariant: after `k` bits it has A times the low `k` bits of B (R104). -/
theorem residue_mulShiftAddUpTo (ha : a.length = n) (b : Value) (k : Nat) :
    residue n (mulShiftAddUpTo n a b k) = residue n a * ((val b % 2 ^ k : ℕ) : ZMod (2 ^ (64 * n))) := by
  induction k with
  | zero => simp [mulShiftAddUpTo, Nat.mod_one]
  | succ k ih =>
    rw [mulShiftAddUpTo, bitAt_eq_testBit, Nat.mod_pow_succ, ← Nat.toNat_testBit]
    cases (val b).testBit k with
    | false => simpa using ih
    | true =>
      rw [if_pos rfl, residue_addN (length_mulShiftAddUpTo ha b k) (length_shlN ha k), ih, residue_shlN ha,
        Bool.toNat_true]
      push_cast
      ring

/-- Settles O26: after 64·N bits the loop has seen all of B. -/
theorem shiftAndAddMultiplierIsTheProduct : Obligations.ShiftAndAddMultiplierIsTheProduct := by
  intro n a b ha hb
  refine eq_of_residue_eq (length_mulShiftAddUpTo ha b _) (length_mulN n a b) ?_
  rw [mulShiftAdd, residue_mulShiftAddUpTo ha, Nat.mod_eq_of_lt (val_lt_of_length hb), residue_mulN, residue, residue]

/-- A row's lowest limb is final, and the rest of B works on the limbs above it (R105). -/
theorem mulRows_cons {x r0 : Limb} {r rs : Value} (xs : Value) (h : mulRow x a r 0 = r0 :: rs) :
    mulRows a (x :: xs) r = r0 :: mulRows a xs rs := by
  rw [mulRows, h]

theorem length_mulRows (a b r : Value) : (mulRows a b r).length = r.length := by
  induction b generalizing r with
  | nil => rfl
  | cons x xs ih =>
    rw [← length_mulRow x a r 0]
    cases hm : mulRow x a r 0 with
    | nil => simp [mulRows, hm]
    | cons r0 rs => rw [mulRows_cons xs hm, List.length_cons, ih, List.length_cons]

/-- A reduction modulo `k + 1` limbs leaves limb 0 and reduces the number above it modulo `k` limbs. -/
theorem limb_add_mod (x : Limb) (m k : Nat) :
    (x.toNat + 2 ^ 64 * m) % 2 ^ (64 * (k + 1)) = x.toNat + 2 ^ 64 * (m % 2 ^ (64 * k)) := by
  rw [Nat.mul_succ, Nat.add_comm (64 * k), Nat.pow_add, Nat.mod_mul, Nat.add_mul_mod_self_left,
    Nat.add_mul_div_left _ _ (by decide), Nat.mod_eq_of_lt x.isLt, Nat.div_eq_of_lt x.isLt, Nat.zero_add]

/-- The rows of B add `A · B` into R modulo its width (R105). -/
theorem val_mulRows (b : Value) {r : Value} (h : r.length ≤ a.length) :
    val (mulRows a b r) = (val r + val a * val b) % 2 ^ (64 * r.length) := by
  induction b generalizing r with
  | nil => simp [mulRows, Nat.mod_eq_of_lt (val_lt r)]
  | cons x xs ih =>
    have hlen := length_mulRow x a r 0
    have hrow := val_mulRow x a r 0 h
    cases hm : mulRow x a r 0 with
    | nil =>
      rw [hm] at hlen
      simp [mulRows, hm, ← hlen, Nat.mod_one]
    | cons r0 rs =>
      rw [hm, List.length_cons] at hlen
      rw [hm, ← hlen] at hrow
      calc val (mulRows a (x :: xs) r)
          = r0.toNat + 2 ^ 64 * ((val rs + val a * val xs) % 2 ^ (64 * rs.length)) := by
            rw [mulRows_cons xs hm, val_cons, ih (by omega)]
        _ = (val (r0 :: rs) + val a * (2 ^ 64 * val xs)) % 2 ^ (64 * (rs.length + 1)) := by
            rw [← limb_add_mod, val_cons]; congr 1; ring
        _ = (val r + val a * val (x :: xs)) % 2 ^ (64 * r.length) := by
            rw [hrow, Nat.mod_add_mod, hlen, val_cons]; congr 1; ring

/-- The limb-parallel multiplier gives the limbs of the product (R105). -/
theorem mulLimbParallel_eq_mulN (ha : a.length = n) (b : Value) : mulLimbParallel n a b = mulN n a b := by
  have hval := val_mulRows (a := a) b (r := zeroN n) (by simp [ha])
  refine eq_of_val_eq (by simp [mulLimbParallel, length_mulRows]) ?_
  rw [mulLimbParallel, hval, mulN, val_limbsOf, val_zeroN, Nat.zero_add, length_zeroN]

/-- Settles O27: both algorithms give the product. -/
theorem limbParallelMultiplierIsShiftAndAdd : Obligations.LimbParallelMultiplierIsShiftAndAdd := by
  intro n a b ha hb
  rw [mulLimbParallel_eq_mulN ha, shiftAndAddMultiplierIsTheProduct n a b ha hb]

end Sys2Proof.Proofs
end

section
/-! A result depends on the operands only, settling O43 (41_arithmetic.md R107, 10_state.md R20): two states that agree
on a command's operands take the same result, the same parse error or the same text. -/

namespace Sys2Proof.Proofs

open Sys2Proof.Machine Sys2Proof.Safety Sys2Proof.Laws

variable {s u s' u' : State} {i : Instr}

/-- The states `s'` and `u'` are `s` and `u` after one result: a value in RD, a parse error or a text in HOUT. -/
inductive SameResult (i : Instr) (s u : State) : State → State → Prop
  | result (rd : Reg) (v : Value) : i.dest = some rd → SameResult i s u (s.writeResult rd v) (u.writeResult rd v)
  | parseError (rd : Reg) (e : ParseError) :
    i.dest = some rd → SameResult i s u (s.raiseStatus e.code) (u.raiseStatus e.code)
  | text (txt : List Byte) :
    i.dest = none →
    SameResult i s u ((s.setHout txt txt.length).setStatus .ok) ((u.setHout txt txt.length).setStatus .ok)

/-- What a command does is a function of the parameters, its sources' values and, for FROMHEX, the text in HIN. -/
theorem effect_sameResult (hcfg : s.cfg = u.cfg) (hv : ∀ r ∈ i.sources, s.value r = u.value r)
    (htext : ∀ rd, i = .fromhex rd → s.hinText = u.hinText) : SameResult i s u (effect s i) (effect u i) := by
  cases i with
  | zero rd | one rd | fromnat rd imm | max rd =>
    simp only [effect, hcfg]
    exact .result rd _ rfl
  | fromhex rd =>
    simp only [effect, hcfg, htext rd rfl]
    cases parseHex u.cfg.n u.cfg.order u.hinText with
    | ok v => exact .result rd v rfl
    | error e => exact .parseError rd e rfl
  | add rd rs1 rs2 | sub rd rs1 rs2 | mul rd rs1 rs2 | and rd rs1 rs2 | or rd rs1 rs2 | xor rd rs1 rs2 =>
    have h1 := hv rs1 (by simp [Instr.sources])
    have h2 := hv rs2 (by simp [Instr.sources])
    simp only [effect, hcfg, h1, h2]
    exact .result rd _ rfl
  | not rd rs1 | shl rd rs1 imm | shr rd rs1 imm =>
    have h1 := hv rs1 (by simp [Instr.sources])
    simp only [effect, hcfg, h1]
    exact .result rd _ rfl
  | tohex rs1 =>
    have h1 := hv rs1 (by simp [Instr.sources])
    simpa [effect, hcfg, h1] using SameResult.text (i := .tohex rs1) (hexN u.cfg.n (u.value rs1)) rfl
  | display rs1 =>
    have h1 := hv rs1 (by simp [Instr.sources])
    simpa [effect, hcfg, h1] using SameResult.text (i := .display rs1) (displayN u.cfg.n (u.value rs1)) rfl

theorem code_ne_ok (e : ParseError) : e.code ≠ .ok := by
  cases e <;> decide

/-- Below HOUT_LEN the bytes of HOUT after a text are the text's, whatever was there before. -/
theorem read_setHout (txt : List Byte) (s : State) {k : Nat} (hk : k < (s.setHout txt txt.length).houtLen.toNat) :
    (s.setHout txt txt.length).hout.read k = txt[k]? := by
  have hlt : k < txt.length := lt_of_lt_of_le hk (by simpa using Nat.mod_le _ _)
  simp [read_writeBlock, hlt]

/-- Settles O43: with their sources written both states take one result, which fixes what it writes. -/
theorem resultDependsOnTheOperandsOnly : Obligations.ResultDependsOnTheOperandsOnly := by
  intro i s u s' u' hcfg hs hu hv htext hs' hu'
  obtain rfl := Host.Outcome.next.inj ((exec_of_written hs).symm.trans hs')
  obtain rfl := Host.Outcome.next.inj ((exec_of_written hu).symm.trans hu')
  have hsame := effect_sameResult hcfg hv htext
  generalize effect s i = s', effect u i = u' at hsame
  cases hsame with
  | result rd v hd =>
    refine ⟨rfl, fun q hq _ => ?_, fun hn => nomatch hd.symm.trans hn⟩
    obtain rfl := Option.some.inj (hd.symm.trans hq)
    rw [(writesResult_writeResult rd v s).result, (writesResult_writeResult rd v u).result]
  | parseError rd e hd => exact ⟨rfl, fun _ _ hok => absurd hok (code_ne_ok e), fun hn => nomatch hd.symm.trans hn⟩
  | text txt hd =>
    refine ⟨rfl, fun _ hq => (nomatch hd.symm.trans hq), fun _ => ⟨rfl, fun k hk => ?_⟩⟩
    exact (read_setHout txt s hk).trans (read_setHout txt u hk).symm

end Sys2Proof.Proofs
end

section
/-! Bitwise logic and the shift identities, settling O29, O32 and O33 (42_bitwise_shift.md R120 to R123, R129, R130):
the lanes do not interact, so a law of one limb is a law of the N limbs, and the complement and the shifts are numbers. -/

namespace Sys2Proof.Proofs

open Sys2Proof.Machine Sys2Proof.Safety Sys2Proof.Laws

variable {n : Nat} {f g : Limb → Limb → Limb} {a : Value}

/-! Limb by limb. -/

theorem limbAt_limbwise (f : Limb → Limb → Limb) (a b : Value) {i : Nat} (hi : i < n) :
    limbAt (limbwise f n a b) i = f (limbAt a i) (limbAt b i) :=
  limbAt_map_range _ hi

theorem limbAt_notN (a : Value) {i : Nat} (hi : i < n) : limbAt (notN n a) i = ~~~(limbAt a i) :=
  limbAt_map_range _ hi

/-- A command of format DST at a limb-wise operator writes the operator's limbs (R120 to R122). -/
theorem formatDST_limbwise (f : Limb → Limb → Limb) (rd rs1 rs2 : Reg) {s : State}
    (hw : ∀ r ∈ [rs1, rs2], (s.slot r).written = true) :
    ∃ t v, formatDST (limbwise f) rd rs1 rs2 s = .next t ∧ WritesResult rd v s t ∧ v.length = s.cfg.n ∧
      ∀ i, i < s.cfg.n → limbAt v i = f (limbAt (s.value rs1) i) (limbAt (s.value rs2) i) :=
  have ⟨t, ht, hr⟩ := formatDST_spec (limbwise f) rd rs1 rs2 hw
  ⟨t, _, ht, hr, length_limbwise _ _ _ _, fun _ hi => limbAt_limbwise _ _ _ hi⟩

/-- Settles O29: AND, OR and XOR are format DST at limb-wise operators, and NOT is format DS at the complement. -/
theorem bitwiseLogicActsOnEveryLimb : Obligations.BitwiseLogicActsOnEveryLimb := by
  intro s rd rs1 rs2
  refine ⟨⟨encodedAs_opcode _, formatDST_limbwise _ rd rs1 rs2⟩,
    ⟨encodedAs_opcode _, formatDST_limbwise _ rd rs1 rs2⟩,
    ⟨encodedAs_opcode _, formatDST_limbwise _ rd rs1 rs2⟩, encodedAs_opcode _, fun hw => ?_⟩
  obtain ⟨t, ht, hr⟩ := formatDS_spec notN rd rs1 hw
  exact ⟨t, _, ht, hr, length_notN _ _, fun _ hi => limbAt_notN _ hi⟩

/-! The laws of the operators (R130). -/

theorem limbwise_comm (hf : ∀ x y, f x y = f y x) (n : Nat) (a b : Value) : limbwise f n a b = limbwise f n b a :=
  List.map_congr_left fun _ _ => hf _ _

theorem limbwise_assoc (hf : ∀ x y z, f (f x y) z = f x (f y z)) (n : Nat) (a b c : Value) :
    limbwise f n (limbwise f n a b) c = limbwise f n a (limbwise f n b c) := by
  refine List.map_congr_left fun i hi => ?_
  have hi := List.mem_range.1 hi
  rw [limbAt_limbwise _ _ _ hi, limbAt_limbwise _ _ _ hi, hf]

/-- De Morgan's law for an operator and its dual. -/
theorem limbwise_notN (hfg : ∀ x y, f (~~~x) (~~~y) = ~~~(g x y)) (n : Nat) (a b : Value) :
    limbwise f n (notN n a) (notN n b) = notN n (limbwise g n a b) := by
  refine List.map_congr_left fun i hi => ?_
  have hi := List.mem_range.1 hi
  rw [limbAt_notN _ hi, limbAt_notN _ hi, limbAt_limbwise _ _ _ hi, hfg]

theorem bitAt_notN (n : Nat) (a : Value) (p : Nat) : bitAt (notN n a) p = (decide (p < 64 * n) && !bitAt a p) := by
  obtain hp | hp := le_or_gt (64 * n) p
  · rw [bitAt_of_ge (by rwa [length_notN])]
    simp [Nat.not_lt.2 hp]
  · have hj : p % 64 < 64 := Nat.mod_lt _ (by decide)
    rw [bitAt, limbAt_notN _ (by omega), bitAt, BitVec.getLsbD_not]
    simp [hp, hj]

/-- The complement as a number (R123). -/
theorem val_notN (ha : a.length = n) : val (notN n a) = 2 ^ (64 * n) - 1 - val a := by
  refine val_eq_of_bitAt fun p => ?_
  rw [bitAt_notN, bitAt_eq_testBit, Nat.sub_sub, Nat.add_comm,
    Nat.testBit_two_pow_sub_succ (val_lt_of_length ha)]

/-- Settles O33: each law holds of single limbs, and the complement's number is that of its bits. -/
theorem bitwiseLawsHold : Obligations.BitwiseLawsHold := fun n a b c =>
  ⟨limbwise_comm BitVec.and_comm n a b, limbwise_comm BitVec.or_comm n a b, limbwise_comm BitVec.xor_comm n a b,
    limbwise_assoc BitVec.and_assoc n a b c, limbwise_assoc BitVec.or_assoc n a b c,
    limbwise_assoc BitVec.xor_assoc n a b c, limbwise_notN (fun _ _ => BitVec.not_or.symm) n a b,
    limbwise_notN (fun _ _ => BitVec.not_and.symm) n a b, val_notN⟩

/-! The shift identities (R129). -/

theorem shlN_zero (n : Nat) (a : Value) : shlN n a 0 = a := if_pos rfl

theorem shlN_width (hn : 1 ≤ n) (a : Value) : shlN n a (64 * n) = zeroN n := by
  rw [shlN, if_neg (by omega), if_pos (Nat.le_refl _)]

theorem limbAt_oneN_shl_limb (hn : 2 ≤ n) {i : Nat} (hi : i < n) :
    limbAt (shlN n (oneN n) 64) i = if i = 1 then 1 else 0 := by
  rw [limbAt_shlN (by decide) (by omega) hi]
  by_cases h0 : i = 0
  · simp [h0]
  · have hge : ¬ i < 64 / 64 := by omega
    have hone : i - 1 = 0 ↔ i = 1 := by omega
    rw [if_neg hge, oneN, limbAt_fromNatN _ (by omega)]
    simp [shl64, shr64, BitVec.ushiftRight_eq_zero, hone]

/-- A right shift undoes a left shift exactly when the left shift lost no bit. -/
theorem shrN_shlN_eq_iff (ha : a.length = n) (k : Nat) :
    shrN n (shlN n a k) k = a ↔ val a * 2 ^ k < 2 ^ (64 * n) := by
  have hlen := length_shlN ha k
  have hval : val (shrN n (shlN n a k) k) = val a * 2 ^ k % 2 ^ (64 * n) / 2 ^ k := by rw [val_shrN hlen, val_shlN ha]
  constructor
  · intro h
    rw [h] at hval
    calc val a * 2 ^ k = val a * 2 ^ k % 2 ^ (64 * n) / 2 ^ k * 2 ^ k := by rw [← hval]
      _ ≤ val a * 2 ^ k % 2 ^ (64 * n) := Nat.div_mul_le_self _ _
      _ < 2 ^ (64 * n) := Nat.mod_lt _ (Nat.two_pow_pos _)
  · intro hlt
    refine eq_of_val_eq ((length_shrN hlen k).trans ha.symm) ?_
    rw [hval, Nat.mod_eq_of_lt hlt, Nat.mul_div_cancel _ (Nat.two_pow_pos k)]

/-- Settles O32: for N = 1 the shift of one by 64 is the shift by the width. -/
theorem shiftIdentities : Obligations.ShiftIdentities := fun n a hn ha =>
  ⟨shlN_zero n a, shlN_width hn a, fun h2 _ hi => limbAt_oneN_shl_limb h2 hi,
    fun h1 => h1 ▸ shlN_width (Nat.le_refl 1) _, shrN_shlN_eq_iff ha⟩

end Sys2Proof.Proofs
end

section
/-! The canonical hex text as a numeral, settling O34 (43_serialization.md R140, R141): the limbs' digits, most
significant limb first, are the digits of the number, and the parser's numeral reads it back (40_construction.md R87). -/

namespace Sys2Proof.Proofs

open Sys2Proof.Machine Sys2Proof.Laws

/-- The `k` low base-16 digits of a number as text, most significant first. -/
def hexDigits (k m : Nat) : List Byte := (List.range k).map fun j => hexDigit (m / 16 ^ (k - 1 - j) % 16)

@[simp] theorem length_hexDigits (k m : Nat) : (hexDigits k m).length = k := by simp [hexDigits]

theorem getElem?_hexDigits {k j : Nat} (hj : j < k) (m : Nat) :
    (hexDigits k m)[j]? = some (hexDigit (m / 16 ^ (k - 1 - j) % 16)) := by
  simp [hexDigits, hj]

theorem hexDigits_one (m : Nat) : hexDigits 1 m = [hexDigit (m % 16)] := by simp [hexDigits]

/-- The digits of a number are those of its part above the `l` low digits, then these. -/
theorem hexDigits_add (k l m : Nat) : hexDigits (k + l) m = hexDigits k (m / 16 ^ l) ++ hexDigits l m := by
  unfold hexDigits
  rw [List.range_add, List.map_append, List.map_map]
  congr 1
  · refine List.map_congr_left fun j hj => ?_
    have hj := List.mem_range.1 hj
    rw [Nat.div_div_eq_div_mul, ← Nat.pow_add]
    congr 4
    omega
  · refine List.map_congr_left fun j _ => ?_
    have he : k + l - 1 - (k + j) = l - 1 - j := by omega
    simp only [Function.comp, he]

theorem isHex_of_mem_hexDigits {k m : Nat} {b : Byte} (h : b ∈ hexDigits k m) : isHex b = true := by
  obtain ⟨j, -, rfl⟩ := List.mem_map.1 h
  exact (hexval_hexDigit _ (Nat.mod_lt _ (by decide))).1

/-- The parser's numeral of the `k` low digits is the number modulo 16^k (40_construction.md R87). -/
theorem hexNumeral_hexDigits (k m : Nat) : hexNumeral (hexDigits k m) = m % 16 ^ k := by
  induction k generalizing m with
  | zero => simp [hexDigits, hexNumeral, Nat.mod_one]
  | succ k ih =>
    have hlast : hexNumeral [hexDigit (m % 16)] = m % 16 := by
      simp [hexNumeral, hexval_hexDigit (m % 16) (Nat.mod_lt _ (by decide))]
    calc hexNumeral (hexDigits (k + 1) m) = m / 16 % 16 ^ k * 16 + m % 16 := by
          rw [hexDigits_add, hexDigits_one, hexNumeral_append, ih, hlast]
          rfl
      _ = m % 16 ^ (k + 1) := by
          rw [Nat.pow_succ', Nat.mod_mul]
          omega

/-- A digit below weight 16^k does not see what lies above. -/
theorem digit_mod_pow {e k : Nat} (he : e < k) (m : Nat) : m % 16 ^ k / 16 ^ e % 16 = m / 16 ^ e % 16 := by
  obtain ⟨d, rfl⟩ := Nat.exists_eq_add_of_lt he
  have hsplit : 16 ^ (e + d + 1) = 16 ^ e * 16 ^ (d + 1) := by rw [Nat.add_assoc, Nat.pow_add]
  rw [hsplit, Nat.mod_mul_right_div_self, Nat.mod_mod_of_dvd _ (dvd_pow_self 16 (Nat.succ_ne_zero d))]

/-- 16 digits are one limb. -/
theorem sixteen_pow_limbs (n : Nat) : 16 ^ (16 * n) = 2 ^ (64 * n) := by
  rw [Nat.pow_mul, Nat.pow_mul]

/-- The text of limb `i` is the 16 digits of the number from digit `16·i` up (R141). -/
theorem limbText_limbAt (a : Value) (i : Nat) : limbText (limbAt a i) = hexDigits 16 (val a / 16 ^ (16 * i)) := by
  refine List.map_congr_left fun r _ => ?_
  have hlimb : (limbAt a i).toNat = val a / 16 ^ (16 * i) % 16 ^ 16 := by
    rw [toNat_limbAt, sixteen_pow_limbs]
    rfl
  rw [hlimb, digit_mod_pow (Nat.lt_succ_of_le (Nat.sub_le 15 r))]

/-- The most significant limb comes first (R141). -/
theorem hexN_succ (n : Nat) (a : Value) : hexN (n + 1) a = limbText (limbAt a n) ++ hexN n a := by
  unfold hexN
  rw [List.range_succ_eq_map, List.flatMap_cons, List.flatMap_map]
  congr 2
  funext q
  have hq : n + 1 - 1 - (q + 1) = n - 1 - q := by omega
  rw [Nat.succ_eq_add_one, hq]

/-- The canonical hex is the `16·N` low digits of the number. -/
theorem hexN_eq_hexDigits (n : Nat) (a : Value) : hexN n a = hexDigits (16 * n) (val a) := by
  induction n with
  | zero => rfl
  | succ n ih => rw [hexN_succ, limbText_limbAt, ih, ← hexDigits_add, Nat.mul_succ, Nat.add_comm]

theorem toNat_hexDigit_decimal {d : Nat} (h : d ≤ 9) : (hexDigit d).toNat = 0x30 + d := by
  rw [hexDigit, if_pos h, BitVec.toNat_ofNat]
  omega

theorem toNat_hexDigit_letter {d : Nat} (h : 10 ≤ d) (h' : d < 16) : (hexDigit d).toNat = 0x61 + (d - 10) := by
  rw [hexDigit, if_neg (by omega), BitVec.toNat_ofNat]
  omega

/-- Settles O34: the canonical hex is a text of the number's digits. -/
theorem canonicalHexIsTheNumbersDigits : Obligations.CanonicalHexIsTheNumbersDigits := by
  refine ⟨fun _ => toNat_hexDigit_decimal, fun _ => toNat_hexDigit_letter,
    fun n a _ => ⟨length_hexN n a, fun j hj => ?_⟩⟩
  rw [hexN_eq_hexDigits, getElem?_hexDigits hj]

end Sys2Proof.Proofs
end

section
/-! The round trip, settling O37 and O38 (43_serialization.md R145): on texts, and on the machine by FROMHEX of what
TOHEX or DISPLAY left in HOUT. -/

namespace Sys2Proof.Proofs

open Sys2Proof.Machine Sys2Proof.Safety Sys2Proof.Laws

variable {n : Nat} {a : Value} {s t : State} {txt : List Byte}

theorem isHex_of_mem_hexN {b : Byte} (h : b ∈ hexN n a) : isHex b = true :=
  isHex_of_mem_hexDigits (hexN_eq_hexDigits n a ▸ h)

/-- A text of digits has no prefix to strip: neither `x` nor `X` is a digit (40_construction.md R84, R85). -/
theorem stripHexPrefix_of_digits (hd : ∀ b ∈ txt, isHex b = true) : stripHexPrefix txt = txt := by
  refine stripHexPrefix_of_no_prefix fun u => ⟨?_, ?_⟩
  · rintro rfl
    exact absurd (hd 0x78#8 (by simp)) (by decide)
  · rintro rfl
    exact absurd (hd 0x58#8 (by simp)) (by decide)

/-- The limbs of the canonical hex are the value: it is the value's number in `16·N` digits. -/
theorem parseLimbs_hexN (ha : a.length = n) : parseLimbs n (hexN n a) = a := by
  refine eq_of_val_eq ((length_parseLimbs n _).trans ha.symm) ?_
  have hlt : val a < 16 ^ (16 * n) := by
    rw [sixteen_pow_limbs]
    exact val_lt_of_length ha
  calc val (parseLimbs n (hexN n a)) = hexNumeral (hexN n a) :=
        val_parseLimbs (fun _ => isHex_of_mem_hexN) (length_hexN n a).le
    _ = val a % 16 ^ (16 * n) := by rw [hexN_eq_hexDigits, hexNumeral_hexDigits]
    _ = val a := Nat.mod_eq_of_lt hlt

/-- A text whose digits are the canonical hex fits and holds no other character, so it parses under every order. -/
theorem parseHex_of_strip_eq_hexN (ha : a.length = n) (h : stripHexPrefix txt = hexN n a) (order : ParseErrorOrder) :
    parseHex n order txt = .ok a := by
  have hdigits : ¬ ∃ b ∈ stripHexPrefix txt, isHex b = false := by
    rintro ⟨b, hb, hbad⟩
    exact Bool.false_ne_true (hbad.symm.trans (isHex_of_mem_hexN (h ▸ hb)))
  rw [parseHex_of_fits (by rw [h, length_hexN]), if_neg hdigits, h, parseLimbs_hexN ha]

theorem parseHex_hexN (ha : a.length = n) (order : ParseErrorOrder) : parseHex n order (hexN n a) = .ok a :=
  parseHex_of_strip_eq_hexN ha (stripHexPrefix_of_digits fun _ => isHex_of_mem_hexN) order

theorem parseHex_displayN (ha : a.length = n) (order : ParseErrorOrder) : parseHex n order (displayN n a) = .ok a :=
  parseHex_of_strip_eq_hexN ha (stripHexPrefix_of_prefix (.inl rfl)) order

/-- Settles O37: both texts are the canonical hex once a prefix is stripped. -/
theorem canonicalTextsParseBack : Obligations.CanonicalTextsParseBack :=
  fun _ order _ _ ha => ⟨parseHex_hexN ha order, parseHex_displayN ha order⟩

/-- TOHEX and DISPLAY of a written register leave in HOUT one of the register's two texts (R142, R144). -/
theorem houtText_of_text_command {rs1 : Reg} (hi : Invariant s) (hw : (s.slot rs1).written = true)
    (h : exec (.tohex rs1) s = .next t ∨ exec (.display rs1) s = .next t) :
    t.houtText = hexN s.cfg.n (s.value rs1) ∨ t.houtText = displayN s.cfg.n (s.value rs1) := by
  obtain ⟨-, -, -, hcap, hcap64⟩ := config_facts hi.config
  have hsrc : ∀ r ∈ [rs1], (s.slot r).written = true := by simpa using hw
  rcases h with h | h
  · obtain ⟨-, t', ht', he, -⟩ := tohexEmitsTheCanonicalHex s rs1 hsrc
    obtain rfl := Host.Outcome.next.inj (ht'.symm.trans h)
    exact .inl (houtText_of_emits he (by rw [length_hexN]; omega))
  · obtain ⟨-, t', ht', he, -⟩ := displayEmitsThePrefixedHex s rs1 hsrc
    obtain rfl := Host.Outcome.next.inj (ht'.symm.trans h)
    exact .inr (houtText_of_emits he (by rw [length_displayN]; omega))

/-- Settles O38: the text in HIN parses back to the register's value, and FROMHEX writes what it parses. -/
theorem textRoundTripOnTheMachine : Obligations.TextRoundTripOnTheMachine := by
  intro s t u rs1 rd hi hw h hcfg htext
  have hparse : parseHex u.cfg.n u.cfg.order u.hinText = .ok (s.value rs1) := by
    rw [htext, hcfg]
    rcases houtText_of_text_command hi hw h with ht | ht
    · rw [ht, parseHex_hexN (length_value hi rs1)]
    · rw [ht, parseHex_displayN (length_value hi rs1)]
  obtain ⟨-, x, hx, hok, -⟩ := fromhexWritesTheParseOrReportsItsError u rd
  exact ⟨x, hx, hok _ hparse⟩

end Sys2Proof.Proofs
end

section
/-! Illegal words, the idle block, STATUS and the duties of the host, settling O7, O9, O42 and O52 (60_exceptions.md
R161 to R163, R173, R174, R177). -/

namespace Sys2Proof.Proofs

open Sys2Proof.Machine Sys2Proof.Safety Sys2Proof.Laws

variable {s : State}

/-- Settles O9: with an empty list the step has no action to perform. -/
theorem idleBlockHoldsItsState : Obligations.IdleBlockHoldsItsState := by
  intro s hwf hp
  simp only [step, runNext, hwf, hp, if_true]

/-! Illegal words. -/

theorem runWord_of_illegal {w : CmdWord} {e : DecodeError} (h : decode s.cfg.nreg w = .error e) :
    runWord w s = .next (s.issueCommand.raiseStatus .illegalCommand) := by
  simp only [runWord, h]

/-- With no delivery in progress issuing a command advances the two counters only (10_state.md R25; log 6, log 12). -/
theorem issueCommand_of_idle (hd : s.delivery = []) :
    s.issueCommand = { s with ci := s.ci + 1, draws := s.draws + 1 } := by
  rw [State.issueCommand, ← hd]

/-- Settles O7: an illegal word issues a command whose one effect is `raiseStatus`. -/
theorem illegalWordWritesOnlyStatus : Obligations.IllegalWordWritesOnlyStatus := by
  intro s w rest e hwf hm hp hd hdec
  refine ⟨_, (step_writeCmd hwf hm hd hp).trans (runWord_of_illegal hdec), ?_⟩
  rw [issueCommand_of_idle (by exact hd)]
  exact onlyStatus_raiseStatus _ _

/-! STATUS. -/

/-- A FROMHEX that does not parse ends with its error's code (60_exceptions.md R161). -/
theorem effect_status_of_parse_error {i : Instr} {rd : Reg} {e : ParseError} (hi : i = .fromhex rd)
    (h : parseHex s.cfg.n s.cfg.order s.hinText = .error e) : (effect s i).status = e.code := by
  simp only [hi, effect, h]
  rfl

/-- Every command but a FROMHEX that does not parse ends with STATUS OK (60_exceptions.md R162). -/
theorem effect_status_of_no_parse_error {i : Instr}
    (h : ∀ rd e, i = .fromhex rd → parseHex s.cfg.n s.cfg.order s.hinText ≠ .error e) :
    (effect s i).status = .ok := by
  cases i with
  | fromhex rd =>
    simp only [effect]
    split
    · rfl
    · next e he => exact absurd he (h rd e rfl)
  | _ => rfl

theorem statusByte_of_status {c : StatusCode} (h : s.status = c) : s.statusByte = 0#6 ++ c.bits := by
  rw [State.statusByte, h]

/-- Settles O42: a command with its sources written leaves its effect, whose STATUS is the parse error's code or OK. -/
theorem statusReportsTheCommand : Obligations.StatusReportsTheCommand := by
  refine ⟨fun i s t hw h => ?_, fun s =>
    ⟨statusByte_of_status, statusByte_of_status, statusByte_of_status, statusByte_of_status⟩⟩
  obtain rfl := Host.Outcome.next.inj ((exec_of_written hw).symm.trans h)
  exact ⟨fun _ => effect_status_of_parse_error, fun _ => effect_status_of_parse_error, effect_status_of_no_parse_error⟩

/-! The duties of the host. -/

theorem whenIdle_of_delivery (hd : s.delivery ≠ []) (o : Host.Outcome State Fault Refusal) :
    whenIdle s o = .fault .accessDuringCommand := by
  simp [whenIdle, hd]

/-- Every access waits for the CMD write before it to return (60_exceptions.md R174). -/
theorem act_access {a : HostAction} (ha : IsAccess a) (s : State) : ∃ o, act a s = whenIdle s o := by
  cases a with
  | writeCmdByte | reset | duringCommand | suppressedHex => exact ha.elim
  | _ => exact ⟨_, rfl⟩

theorem writeHinLen_above_cap {v : BitVec 64} (h : s.cfg.hinCap < v.toNat) :
    writeHinLen v s = .fault (.hinLenAboveCap v) :=
  if_neg (Nat.not_le.2 h)

theorem writeHin_past_end {k : Nat} {bs : List Byte} (h : s.cfg.hinCap < k + bs.length) :
    writeHin k bs s = .fault (.pastEndOfSpace .hin k bs.length) :=
  if_neg (Nat.not_le.2 h)

theorem readSpace_past_end {sp : Space} {k w : Nat} (h : spaceSize s.cfg sp < k + w) :
    readSpace sp k w s = .fault (.pastEndOfSpace sp k w) :=
  if_neg (Nat.not_le.2 h)

/-- Settles O52: with no delivery in progress each port checks its own duty, and during one every access fails the check
that it is idle. -/
theorem brokenDutiesHaveNoMove : Obligations.BrokenDutiesHaveNoMove := by
  intro s hm
  simp only [perform_eq_act hm]
  refine ⟨fun hd => ?_, fun hd a ha => ?_, fun w => rfl⟩
  · have hidle := whenIdle_of_idle hd
    refine ⟨fun v h => (hidle _).trans (writeHinLen_above_cap h), fun k bs h => (hidle _).trans (writeHin_past_end h),
      fun k w h => (hidle _).trans (readSpace_past_end h), fun k w h => (hidle _).trans (readSpace_past_end h),
      fun k w h => (hidle _).trans (readSpace_past_end ?_), fun p => hidle _, hidle _⟩
    rwa [Nat.mul_assoc] at h
  · obtain ⟨o, ho⟩ := act_access ha s
    exact ho.trans (whenIdle_of_delivery hd o)

end Sys2Proof.Proofs
end

section
/-! Hazards and reset, settling O10, O44, O53 and O54 (70_reset_and_hazards.md R180, R184, R187, R189; 60_exceptions.md
R173): every command completes, one whose RD is also its source reads the old value, and what a reset does with and
without a command in progress. -/

namespace Sys2Proof.Proofs

open Sys2Proof.Machine Sys2Proof.Safety Sys2Proof.Laws

variable {n : Nat} {a b v : Value} {f : Limb → Limb → Limb} {s : State}

/-- Settles O10: behind the check of its sources a command answers its effect or, with one unwritten, no result. -/
theorem everyCommandCompletes : Obligations.EveryCommandCompletes := by
  intro i s
  rw [exec_eq_withSources]
  cases hu : s.firstUnwritten i.sources with
  | none => exact ⟨_, withSources_of_written (firstUnwritten_eq_none.1 hu)⟩
  | some r =>
    obtain ⟨t, ht, -⟩ := withSources_of_unwritten hu
    exact ⟨t, ht⟩

/-! A value combined with itself. -/

theorem limbwise_eq_of_limbAt (hv : v.length = n) (h : ∀ i, i < n → f (limbAt a i) (limbAt b i) = limbAt v i) :
    limbwise f n a b = v := by
  have hl := length_limbwise f n a b
  refine eq_of_limbAt_eq (hl.trans hv.symm) fun i hi => ?_
  rw [hl] at hi
  rw [limbAt_limbwise f a b hi, h i hi]

theorem andN_self (ha : a.length = n) : andN n a a = a :=
  limbwise_eq_of_limbAt ha fun _ _ => BitVec.and_self

theorem xorN_self (n : Nat) (a : Value) : xorN n a a = zeroN n :=
  limbwise_eq_of_limbAt (length_zeroN n) fun _ hi => BitVec.xor_self.trans (limbAt_replicate _ hi).symm

theorem subN_self (ha : a.length = n) : subN n a a = zeroN n := by
  refine eq_of_residue_eq (length_subN ha ha) (length_zeroN n) ?_
  rw [residue_subN ha ha, sub_self, residue_zeroN]

/-! The old value is read before the result is written. -/

/-- With RD equal to both sources, format DST leaves its operator's value of the register's old value twice (R184). -/
theorem formatDST_inPlace (f : Nat → Value → Value → Value) {r : Reg} (hw : (s.slot r).written = true) :
    ∃ t, formatDST f r r r s = .next t ∧ t.value r = f s.cfg.n (s.value r) (s.value r) := by
  obtain ⟨t, ht, hr⟩ := formatDST_spec f r r r (s := s) (by simp [hw])
  have hslot := hr.result
  exact ⟨t, ht, by rw [value_of_written (by rw [hslot]), hslot]⟩

/-- Settles O44: each of the six commands is format DST in place, at an operator whose value on a pair of equal operands
is known. -/
theorem inPlaceCommandsUseTheOldValue : Obligations.InPlaceCommandsUseTheOldValue := by
  intro s r hi hw
  have hlen := length_value hi r
  obtain ⟨tadd, hadd, vadd⟩ := formatDST_inPlace addN hw
  obtain ⟨tsub, hsub, vsub⟩ := formatDST_inPlace subN hw
  obtain ⟨txor, hxor, vxor⟩ := formatDST_inPlace xorN hw
  obtain ⟨tmul, hmul, vmul⟩ := formatDST_inPlace mulN hw
  obtain ⟨tand, hand, vand⟩ := formatDST_inPlace andN hw
  obtain ⟨tor, hor, vor⟩ := formatDST_inPlace orN hw
  exact ⟨⟨tadd, hadd, by rw [vadd, val_addN hlen hlen, Nat.two_mul]⟩,
    ⟨tsub, hsub, vsub.trans (subN_self hlen)⟩,
    ⟨txor, hxor, vxor.trans (xorN_self _ _)⟩,
    ⟨tmul, hmul, by rw [vmul, mulN, val_limbsOf, Nat.pow_two]⟩,
    ⟨tand, hand, vand.trans (andN_self hlen)⟩,
    ⟨tor, hor, vor.trans (orN_self hlen)⟩⟩

/-! Reset and the refusal mark. -/

/-- A reset has its meaning under the refusal mark too (R180, 60_exceptions.md R173). -/
theorem perform_reset (s : State) : perform .reset s = act .reset s := by
  cases hm : s.refusalMark with
  | none => exact perform_eq_act hm .reset
  | some m => simp only [perform, hm]

theorem act_reset_of_idle (hd : s.delivery = []) : act .reset s = .next s.resetBlock := by
  simp [act, hd]

theorem act_reset_of_delivery (hd : s.delivery ≠ []) :
    act .reset s = .next (s.refuseAction .resetDuringCommand) := by
  simp [act, hd]

/-- The first refused action is the one that the refusal mark names (log 4). -/
theorem refusalMark_refuseAction (h : s.refusalMark = none) (m : RefusedAction) :
    (s.refuseAction m).refusalMark = some m := by
  rw [refuseAction_refusalMark, h, Option.none_or]

/-- Settles O53: without a mark each of the three actions is refused and noted, and under one only a reset has a
meaning. -/
theorem resetDuringCommandIsRefused : Obligations.ResetDuringCommandIsRefused := by
  intro s
  refine ⟨fun hm => ?_, fun m a hm ha => perform_of_mark hm ha⟩
  have noted := refusalMark_refuseAction hm
  exact ⟨fun w => ⟨_, perform_eq_act hm (.duringCommand w .reset), noted _⟩,
    fun hd => ⟨_, (perform_reset s).trans (act_reset_of_delivery hd), noted _⟩,
    fun r => ⟨_, perform_eq_act hm (.suppressedHex r), noted _⟩⟩

/-- Settles O54: with no delivery in progress a reset, under a mark or not, is `State.resetBlock`. -/
theorem resetClearsTheBlock : Obligations.ResetClearsTheBlock := by
  intro s hd
  refine ⟨s.resetBlock, (perform_reset s).trans (act_reset_of_idle hd), fun r => ?_, rfl, rfl, rfl,
    fun _ => ⟨rfl, rfl⟩, rfl, rfl, rfl, rfl, rfl⟩
  rw [resetBlock_slot]

end Sys2Proof.Proofs
end
